-- ==== Sys2Proof/Word.lean ====
section
/-! DEFINITION. The datapath word and the microinstruction word. -/

namespace Sys2Proof

/-- A datapath word: a bank register, MAR, MBR, an ALU or shifter value, a backing-memory word.
`W = 16` is the spec's decision D1, D2 (rule R5); log entries 1 and 2. -/
abbrev Word := BitVec 16

/-- A microinstruction: `IW = 32` (rules R5, R41). -/
abbrev UWord := BitVec 32

end Sys2Proof
end

