-- ==== Sys2Proof/Syntax.lean ====
section
/-! DEFINITION. The 21 micro-operations of the opcode table, and the bank register names. -/

namespace Sys2Proof

/-- The sixteen bank registers of rule R12, in index order, spelled as in rule R49. `ra` to `rf` are
the registers A to F of indices 10 to 15, not the bus fields A, B, C (rule R10). -/
inductive Reg where
  | pc | ac | sp | ir | tir
  | zero | plus1 | minus1 | amask | smask
  | ra | rb | rc | rd | re | rf
  deriving DecidableEq, Repr

/-- One micro-operation: a row of spec/opcode_table.json (rule R46). A microinstruction word is
horizontal, so it is a list of these, one of each field group: see `Microinstruction`. Log entry 11
says which operand fields each row carries. -/
inductive Instr where
  /-- ALU input A from bus A (R69). -/
  | amuxA (a : Reg)
  /-- ALU input A from MBR (R69). -/
  | amuxMbr
  /-- Sum (R60). -/
  | aluAdd (b : Reg)
  /-- Bitwise and (R61). -/
  | aluAnd (b : Reg)
  /-- Input A unchanged (R62). -/
  | aluPassA (b : Reg)
  /-- Complement of input A (R63). -/
  | aluNotA (b : Reg)
  /-- ALU output unchanged (R65). -/
  | shPass
  /-- Logical right shift by one (R66). -/
  | shSrl1
  /-- Left shift by one (R67). -/
  | shSll1
  /-- The undefined shift: a non-fatal error (R68). -/
  | shUndef
  /-- MBR from the shifter output (R72). -/
  | ldMbr
  /-- MAR from bus B (R71). -/
  | ldMar (b : Reg)
  /-- No memory request (R74). -/
  | memNone
  /-- Read request (R74, R79). -/
  | memRd
  /-- Write request (R74, R80). -/
  | memWr
  /-- RD and WR both set: a fatal error (R76). -/
  | memConflict
  /-- The register on bus C from the shifter output (R73). -/
  | enc (c : Reg)
  /-- No branch (R84). -/
  | condNone
  /-- Jump if N (R85). -/
  | condN (addr : BitVec 8)
  /-- Jump if Z (R86). -/
  | condZ (addr : BitVec 8)
  /-- Jump if N or Z (R87). -/
  | condAlways (addr : BitVec 8)
  deriving DecidableEq, Repr

/-- The field groups of rule R46: each value of a group's control field is one row. -/
inductive Group where
  | amux | mar | alu | sh | mem | mbr | enc | cond
  deriving DecidableEq, Repr

/-- A microinstruction as its micro-operations, in the order rule R50 performs them. -/
abbrev Microinstruction := List Instr

/-- The thirteen raw fields of a word, at the widths of rule R41. -/
structure Fields where
  amux : BitVec 1
  cond : BitVec 2
  alu : BitVec 2
  sh : BitVec 2
  mbr : BitVec 1
  mar : BitVec 1
  rd : BitVec 1
  wr : BitVec 1
  enc : BitVec 1
  c : BitVec 4
  b : BitVec 4
  a : BitVec 4
  addr : BitVec 8
  deriving DecidableEq, Repr

end Sys2Proof
end

