-- ==== Sys2Proof/WellFormed.lean ====
section
/-! DEFINITION. Which lists of micro-operations are a microinstruction. Each operand of one
micro-operation is in range by its type (rules R44, R45: every value is legal), so the checks are on
the list: rule R46, "one row per group". -/

namespace Sys2Proof

/-- The field group a row belongs to (rule R46). -/
def Instr.group : Instr → Group
  | .amuxA _ | .amuxMbr => .amux
  | .aluAdd _ | .aluAnd _ | .aluPassA _ | .aluNotA _ => .alu
  | .shPass | .shSrl1 | .shSll1 | .shUndef => .sh
  | .ldMbr => .mbr
  | .ldMar _ => .mar
  | .memNone | .memRd | .memWr | .memConflict => .mem
  | .enc _ => .enc
  | .condNone | .condN _ | .condZ _ | .condAlways _ => .cond

/-- The place of a group in the cycle of rule R50. -/
def Group.place : Group → Nat
  | .amux => 0 | .mar => 1 | .alu => 2 | .sh => 3 | .mem => 4 | .mbr => 5 | .enc => 6 | .cond => 7

/-- The groups of which every word has a row; MAR, MBR and ENC have "none" as a value (rule R46). -/
def mandatoryGroups : List Group := [.amux, .alu, .sh, .mem, .cond]

/-- The bus B register a row reads, if it reads one. -/
def Instr.busB : Instr → Option Reg
  | .aluAdd b | .aluAnd b | .aluPassA b | .aluNotA b | .ldMar b => some b
  | _ => none

/-- The rows stand in cycle order, at most one of each group. -/
def inCycleOrder : Microinstruction → Bool
  | [] => true
  | [_] => true
  | i :: j :: rest => decide (i.group.place < j.group.place) && inCycleOrder (j :: rest)

/-- Every mandatory group has a row. -/
def hasMandatoryGroups (l : Microinstruction) : Bool :=
  mandatoryGroups.all fun g => l.any fun i => decide (i.group = g)

/-- A word has one field B: all rows that read bus B name the same register (rule R16). -/
def oneBusB (l : Microinstruction) : Bool :=
  match l.filterMap Instr.busB with
  | [] => true
  | b :: rest => rest.all fun b' => decide (b' = b)

/-- A list of rows that is one microinstruction word. -/
def WellFormed (l : Microinstruction) : Bool :=
  inCycleOrder l && hasMandatoryGroups l && oneBusB l

end Sys2Proof
end

