-- ==== Sys2Proof/Decode.lean ====
section
/-! DEFINITION. Fields of a word, the decoder from a word to its micro-operations, and the encoder.
Rules R41 to R48 and spec/opcode_table.json. -/

namespace Sys2Proof

/-! ## Register indices (rule R12) -/

/-- The bank register of a 4-bit index (rules R12, R44: every value names one). -/
def Reg.ofIndex (i : BitVec 4) : Reg :=
  match i.toNat with
  | 0 => .pc | 1 => .ac | 2 => .sp | 3 => .ir | 4 => .tir
  | 5 => .zero | 6 => .plus1 | 7 => .minus1 | 8 => .amask | 9 => .smask
  | 10 => .ra | 11 => .rb | 12 => .rc | 13 => .rd | 14 => .re | _ => .rf

/-- The 4-bit index of a bank register (rule R12). -/
def Reg.index : Reg → BitVec 4
  | .pc => 0 | .ac => 1 | .sp => 2 | .ir => 3 | .tir => 4
  | .zero => 5 | .plus1 => 6 | .minus1 => 7 | .amask => 8 | .smask => 9
  | .ra => 10 | .rb => 11 | .rc => 12 | .rd => 13 | .re => 14 | .rf => 15

/-! ## Field extraction and packing (rules R41, R42) -/

/-- The thirteen fields of a word, at the positions of rule R41. -/
def unpack (w : UWord) : Fields where
  amux := w.extractLsb' 31 1
  cond := w.extractLsb' 29 2
  alu := w.extractLsb' 27 2
  sh := w.extractLsb' 25 2
  mbr := w.extractLsb' 24 1
  mar := w.extractLsb' 23 1
  rd := w.extractLsb' 22 1
  wr := w.extractLsb' 21 1
  enc := w.extractLsb' 20 1
  c := w.extractLsb' 16 4
  b := w.extractLsb' 12 4
  a := w.extractLsb' 8 4
  addr := w.extractLsb' 0 8

/-- A field moved to its position in the word. -/
def place {n : Nat} (v : BitVec n) (lo : Nat) : UWord := v.setWidth 32 <<< lo

/-- The packing formula of rule R42. -/
def pack (f : Fields) : UWord :=
  place f.amux 31 ||| place f.cond 29 ||| place f.alu 27 ||| place f.sh 25 ||| place f.mbr 24
    ||| place f.mar 23 ||| place f.rd 22 ||| place f.wr 21 ||| place f.enc 20
    ||| place f.c 16 ||| place f.b 12 ||| place f.a 8 ||| place f.addr 0

/-! ## The decoder (rule R46: one row per group) -/

/-- AMUX, bit 31. -/
def decodeAmux (f : Fields) : Instr :=
  if f.amux = 1 then .amuxMbr else .amuxA (Reg.ofIndex f.a)

/-- MAR, bit 23. -/
def decodeMar (f : Fields) : List Instr :=
  if f.mar = 1 then [.ldMar (Reg.ofIndex f.b)] else []

/-- ALU, bits 28:27. -/
def decodeAlu (f : Fields) : Instr :=
  match f.alu.toNat with
  | 0 => .aluAdd (Reg.ofIndex f.b)
  | 1 => .aluAnd (Reg.ofIndex f.b)
  | 2 => .aluPassA (Reg.ofIndex f.b)
  | _ => .aluNotA (Reg.ofIndex f.b)

/-- SH, bits 26:25. Bit 1 is flagA and bit 0 flagB (rule R43, decision D27; log entry 16). -/
def decodeSh (f : Fields) : Instr :=
  match f.sh.toNat with
  | 0 => .shPass
  | 1 => .shSrl1
  | 2 => .shSll1
  | _ => .shUndef

/-- RD, bit 22, and WR, bit 21. -/
def decodeMem (f : Fields) : Instr :=
  if f.rd = 1 then (if f.wr = 1 then .memConflict else .memRd)
  else (if f.wr = 1 then .memWr else .memNone)

/-- MBR, bit 24. -/
def decodeMbr (f : Fields) : List Instr :=
  if f.mbr = 1 then [.ldMbr] else []

/-- ENC, bit 20, with its destination field C. -/
def decodeEnc (f : Fields) : List Instr :=
  if f.enc = 1 then [.enc (Reg.ofIndex f.c)] else []

/-- COND, bits 30:29, with its target field ADDR. -/
def decodeCond (f : Fields) : Instr :=
  match f.cond.toNat with
  | 0 => .condNone
  | 1 => .condN f.addr
  | 2 => .condZ f.addr
  | _ => .condAlways f.addr

/-- The rows of a word's fields, in the order rule R50 performs them. -/
def Fields.rows (f : Fields) : Microinstruction :=
  [decodeAmux f] ++ decodeMar f ++ [decodeAlu f] ++ [decodeSh f] ++ [decodeMem f] ++ decodeMbr f
    ++ decodeEnc f ++ [decodeCond f]

/-- The decoder: every 32-bit word is a microinstruction (rule R47). -/
def decode (w : UWord) : Microinstruction := (unpack w).rows

/-- Why a bit string is no microinstruction. -/
inductive DecodeReject where
  /-- It is not one 32-bit word: "There is no other length" (R41, R48). Raised by `decodeBits`. Safe. -/
  | notOneWord (nbits : Nat)
  /-- The number given has bits beyond the 32 of the word. Raised by `decodeBits`. Safe. -/
  | tooWide (w : Nat)
  deriving DecidableEq, Repr

/-- Decoding of any bit string: `nbits` bits with the value `w`. -/
def decodeBits (nbits w : Nat) : Except DecodeReject Microinstruction :=
  if nbits ≠ 32 then .error (.notOneWord nbits)
  else if 2 ^ 32 ≤ w then .error (.tooWide w)
  else .ok (decode (BitVec.ofNat 32 w))

/-! ## Masks and matches of spec/opcode_table.json -/

/-- The row's mask: the control bits that select it. -/
def Instr.rowMask : Instr → UWord
  | .amuxA _ | .amuxMbr => 0x80000000
  | .aluAdd _ | .aluAnd _ | .aluPassA _ | .aluNotA _ => 0x18000000
  | .shPass | .shSrl1 | .shSll1 | .shUndef => 0x06000000
  | .ldMbr => 0x01000000
  | .ldMar _ => 0x00800000
  | .memNone | .memRd | .memWr | .memConflict => 0x00600000
  | .enc _ => 0x00100000
  | .condNone | .condN _ | .condZ _ | .condAlways _ => 0x60000000

/-- The row's match: the value of the control bits that selects it. -/
def Instr.rowMatch : Instr → UWord
  | .amuxA _ => 0x00000000
  | .amuxMbr => 0x80000000
  | .aluAdd _ => 0x00000000
  | .aluAnd _ => 0x08000000
  | .aluPassA _ => 0x10000000
  | .aluNotA _ => 0x18000000
  | .shPass => 0x00000000
  | .shSrl1 => 0x02000000
  | .shSll1 => 0x04000000
  | .shUndef => 0x06000000
  | .ldMbr => 0x01000000
  | .ldMar _ => 0x00800000
  | .memNone => 0x00000000
  | .memRd => 0x00400000
  | .memWr => 0x00200000
  | .memConflict => 0x00600000
  | .enc _ => 0x00100000
  | .condNone => 0x00000000
  | .condN _ => 0x20000000
  | .condZ _ => 0x40000000
  | .condAlways _ => 0x60000000

/-- The operand fields the table gives the row, as a mask of word bits. -/
def Instr.rowFields : Instr → UWord
  | .amuxA _ => 0x00000F00
  | .aluAdd _ | .aluAnd _ | .aluPassA _ | .aluNotA _ => 0x8000FF00
  | .ldMar _ => 0x0000F000
  | .enc _ => 0x000F0000
  | .condN _ | .condZ _ | .condAlways _ => 0x000000FF
  | _ => 0x00000000

/-! ## The encoder (rule R42) -/

/-- The row's own operand, at its field's position. -/
def Instr.operandBits : Instr → UWord
  | .amuxA a => place a.index 8
  | .aluAdd b | .aluAnd b | .aluPassA b | .aluNotA b | .ldMar b => place b.index 12
  | .enc c => place c.index 16
  | .condN addr | .condZ addr | .condAlways addr => place addr 0
  | _ => 0

/-- The bits one row contributes to a word. -/
def encodeRow (i : Instr) : UWord := i.rowMatch ||| i.operandBits

/-- The word of a microinstruction; fields no row uses are 0 (rule R49). -/
def encode (l : Microinstruction) : UWord := l.foldr (fun i w => encodeRow i ||| w) 0

/-! ## One row to stand for a word

A word is one row of every group at once (R46), so "the instruction of a word" is a choice: log entry 13. -/

/-- Every 1 bit of the word belongs to this row. -/
def Instr.covers (i : Instr) (w : UWord) : Bool := w &&& ~~~(i.rowMask ||| i.rowFields) == 0

/-- The row that stands for a word: the first that owns every 1 bit of it; else, for a word that
combines several rows, the first whose control bits are not all 0; else the first. -/
def representative (w : UWord) : Option Instr :=
  (decode w).find? (fun i => i.covers w) <|> (decode w).find? (fun i => i.rowMatch != 0)
    <|> (decode w).head?

/-- The host's question: the one row that stands for a word of the table. -/
def decodeTableWord (nbits w : Nat) : Option Instr :=
  match decodeBits nbits w with
  | .error _ => none
  | .ok _ => representative (BitVec.ofNat 32 w)

end Sys2Proof
end

