-- ==== Sys2Proof/Config.lean ====
section
/-! DEFINITION. The implementation parameters of rule R5, and the values the spec leaves unspecified. -/

namespace Sys2Proof.Config

/-- `W`, the width of every datapath word (rule R5, decision D1). DESIGN CHOICE, log entry 1. -/
def W : Nat := 16

/-- The constant of register 8 (rule R14). A literal the source does not audit (N22). -/
def amask : Word := 0x0FFF

/-- The constant of register 9 (rule R14). A literal the source does not audit (N22). -/
def smask : Word := 0x00FF

/-! The free values of rule R29 ("any value", "It must not pick 0"). None has a body, so no proof
can see one. DESIGN CHOICE, log entries 4 and 5; safe, since a claim holds whatever they are. -/

/-- What an unseeded mutable bank register holds, by its index (rule R29, D4). -/
opaque regInit : BitVec 4 → Word

/-- What an unseeded MAR holds (rule R29, D4, D18). -/
opaque marInit : Word

/-- What an unseeded MBR holds (rule R29, D4, D18). -/
opaque mbrInit : Word

/-- What MIR holds before the first fetch (rules R19, R29). -/
opaque mirInit : UWord

/-- `SHOUT_INIT` (rules R5, R29, D11). -/
opaque shoutInit : Word

/-- What a backing-memory word that nobody seeded or wrote holds, by its address (rule R32, D4).
It depends on the address alone: two Reads of the same unwritten word agree. -/
opaque memInit : Word → Word

end Sys2Proof.Config
end

