-- ==== Sys2Proof/Machine/State.lean ====
section
/-! DEFINITION. Every piece of state the spec gives the CORE (rule R11), the state before the first
cycle (rule R29), and the reasons a step can stop. -/

namespace Sys2Proof.Machine

/-- The eleven mutable bank registers (rules R12, R13). Registers 5 to 9 are constants "from
construction" that no write changes (R14): they are hard-wired in `Bank.read`. Log entry 23. -/
structure Bank where
  pc : Word
  ac : Word
  sp : Word
  ir : Word
  tir : Word
  ra : Word
  rb : Word
  rc : Word
  rd : Word
  re : Word
  rf : Word
  deriving DecidableEq, Repr

/-- The operation a request names (rule R22: None, Read, Write). -/
inductive MemOp where
  | none | read | write
  deriving DecidableEq, Repr

/-- The handshake state `HS` of the memory port (rule R22); one copy (D9, log entry 8). -/
structure Handshake where
  lastReq : Bool
  thisReq : Bool
  lastOp : MemOp
  thisOp : MemOp
  deriving DecidableEq, Repr

/-- The idle port: `(false, false, None, None)` (rules R29, R81). -/
def Handshake.idle : Handshake := ⟨false, false, .none, .none⟩

/-- The fatal error kinds of rules R28 and R91. -/
inductive FatalKind where
  | conflictingMemoryOp
  | programCounterOutOfRange
  deriving DecidableEq, Repr

/-- The eight error kinds of rule R90, in the order of its codes. -/
inductive ErrorKind where
  | overflow
  | immutableWrite
  | inputOverflow
  | undefinedShiftOp
  | unknownRegisterName
  | notInBank
  | conflictingMemoryOp
  | programCounterOutOfRange
  deriving DecidableEq, Repr

/-- The two severities of rule R92. -/
inductive Severity where
  | fatal | error
  deriving DecidableEq, Repr

/-- A diagnostic event: kind and severity; the message is not modelled (R92, D14; log entry 10). -/
structure Event where
  kind : ErrorKind
  severity : Severity
  deriving DecidableEq, Repr

/-- The ALU's two input latches and its output latch (rule R24). The spec says they are not state:
they carry values between the micro-operations of one cycle and are cleared at its end. The model's
own fields; log entry 12. -/
structure Latches where
  aluA : Word
  aluB : Word
  aluOut : Word
  deriving DecidableEq, Repr

/-- The latches between cycles. DESIGN CHOICE 0, log entry 12. -/
def Latches.clear : Latches := ⟨0, 0, 0⟩

/-- Backing memory as (word address, word) pairs, addresses strictly rising; an address that is not
listed is a word nobody seeded or wrote (rule R32). Word cells: R33, log entry 15. -/
abbrev Memory := List (Nat × Word)

/-- The state of the CORE (rule R11). -/
structure State where
  bank : Bank
  mpc : Nat
  mir : UWord
  mar : Word
  mbr : Word
  hs : Handshake
  z : Bool
  n : Bool
  shout : Word
  prog : List UWord
  mem : Memory
  fault : Option FatalKind
  events : List Event
  lat : Latches
  deriving DecidableEq, Repr

/-- Everything the host gives, or the spec leaves unspecified, before the first cycle (rule R29:
`REG_INIT`, MAR, MBR, `MEM_INIT`, `SHOUT_INIT`, MIR and PROG of R5). -/
structure Setup where
  bank : Bank
  mar : Word
  mbr : Word
  mir : UWord
  shout : Word
  prog : List UWord
  mem : Memory
  deriving DecidableEq, Repr

/-- The bank that nobody seeded (rule R29). DESIGN CHOICE: free values, log entry 4. -/
def Bank.unseeded : Bank where
  pc := Config.regInit 0
  ac := Config.regInit 1
  sp := Config.regInit 2
  ir := Config.regInit 3
  tir := Config.regInit 4
  ra := Config.regInit 10
  rb := Config.regInit 11
  rc := Config.regInit 12
  rd := Config.regInit 13
  re := Config.regInit 14
  rf := Config.regInit 15

/-- Nothing seeded and nothing loaded. DESIGN CHOICE: free values, log entries 4 and 5. -/
def Setup.unseeded : Setup where
  bank := Bank.unseeded
  mar := Config.marInit
  mbr := Config.mbrInit
  mir := Config.mirInit
  shout := Config.shoutInit
  prog := []
  mem := []

/-- The state before the first cycle (rules R29, R101), for any setup by the host. -/
def State.initial (su : Setup) : State where
  bank := su.bank
  mpc := 0
  mir := su.mir
  mar := su.mar
  mbr := su.mbr
  hs := Handshake.idle
  z := false
  n := false
  shout := su.shout
  prog := su.prog
  mem := su.mem
  fault := none
  events := []
  lat := Latches.clear

/-- The state at construction with nothing seeded or loaded (rules R29, R101). -/
def State.reset : State := State.initial Setup.unseeded

/-- Why a step stops. -/
inductive Fault where
  /-- `fault` is set: "the machine takes no further cycle" (rules R28, R57). Raised by `step` alone.
  Safe: the model stops where a host might go on (D13, log entry 9). -/
  | stopped (kind : FatalKind)
  deriving DecidableEq, Repr

/-- Why a step is refused. -/
inductive Refusal where
  /-- An instruction with no meaning yet; raised by `exec`'s refused arms, of which there is none.
  Safe. -/
  | notModelled (mnemonic : String)
  deriving DecidableEq, Repr

end Sys2Proof.Machine
end

