-- ==== Sys2Proof/Machine/Ops.lean ====
section
/-! DEFINITION. The named operations over registers, memory and the rest of the state: the only way
the meanings read or change it. Errors take the place of exceptions in this CORE: `emit` and
`raiseFatal` are the one way each kind is recorded (rules R55, R91, R94). -/

namespace Sys2Proof.Machine

/-! ## Errors (rules R90 to R92) -/

/-- The spec's own numbering (rule R90, D15; log entry 20). -/
def ErrorKind.code : ErrorKind → Nat
  | .overflow => 1
  | .immutableWrite => 2
  | .inputOverflow => 3
  | .undefinedShiftOp => 4
  | .unknownRegisterName => 5
  | .notInBank => 6
  | .conflictingMemoryOp => 7
  | .programCounterOutOfRange => 8

/-- A fatal kind among the eight kinds. -/
def FatalKind.toErrorKind : FatalKind → ErrorKind
  | .conflictingMemoryOp => .conflictingMemoryOp
  | .programCounterOutOfRange => .programCounterOutOfRange

/-- Fatal for the two kinds of rule R91, error for the others (rule R92, D26). -/
def ErrorKind.severity : ErrorKind → Severity
  | .conflictingMemoryOp | .programCounterOutOfRange => .fatal
  | .overflow | .immutableWrite | .inputOverflow | .undefinedShiftOp | .unknownRegisterName
  | .notInBank => .error

/-- The event of a kind (rule R92). -/
def ErrorKind.event (k : ErrorKind) : Event := ⟨k, k.severity⟩

/-- A non-fatal error: the event is appended and the cycle goes on (rule R55). -/
def State.emit (k : ErrorKind) (s : State) : State := { s with events := s.events ++ [k.event] }

/-- A fatal error: the kind is recorded, nothing is saved, no mode changes and control goes nowhere
(rules R28, R91, R94). The cycle ends here: `runRows`. -/
def State.raiseFatal (k : FatalKind) (s : State) : State := { s with fault := some k }

/-! ## Field updates -/

def State.setBank (b : Bank) (s : State) : State := { s with bank := b }
def State.setMpc (v : Nat) (s : State) : State := { s with mpc := v }
def State.setMir (w : UWord) (s : State) : State := { s with mir := w }
def State.setMar (v : Word) (s : State) : State := { s with mar := v }
def State.setMbr (v : Word) (s : State) : State := { s with mbr := v }
def State.setHs (h : Handshake) (s : State) : State := { s with hs := h }
def State.setShout (v : Word) (s : State) : State := { s with shout := v }
def State.setMem (m : Memory) (s : State) : State := { s with mem := m }
def State.setFlags (z n : Bool) (s : State) : State := { s with z := z, n := n }
def State.setAluA (v : Word) (s : State) : State := { s with lat := { s.lat with aluA := v } }
def State.setAluB (v : Word) (s : State) : State := { s with lat := { s.lat with aluB := v } }
def State.setAluOut (v : Word) (s : State) : State := { s with lat := { s.lat with aluOut := v } }

/-- The end of a cycle: the ALU's latches carry nothing into the next one (rules R11, R24). -/
def State.clearLatches (s : State) : State := { s with lat := Latches.clear }

/-! ## The register bank (rules R12 to R17) -/

/-- Reading a bank register: it always succeeds (rule R15). Registers 5 to 9 read as their constants
(rule R14), with −1 as `2^W − 1`. -/
def Bank.read (b : Bank) : Reg → Word
  | .pc => b.pc
  | .ac => b.ac
  | .sp => b.sp
  | .ir => b.ir
  | .tir => b.tir
  | .zero => 0x0000
  | .plus1 => 0x0001
  | .minus1 => 0xFFFF
  | .amask => Config.amask
  | .smask => Config.smask
  | .ra => b.ra
  | .rb => b.rb
  | .rc => b.rc
  | .rd => b.rd
  | .re => b.re
  | .rf => b.rf

/-- Whether a register is mutable (the table of rule R12). -/
def isMutable : Reg → Bool
  | .zero | .plus1 | .minus1 | .amask | .smask => false
  | .pc | .ac | .sp | .ir | .tir | .ra | .rb | .rc | .rd | .re | .rf => true

/-- Storing into a mutable register; a constant has no storage, so it stays. -/
def Bank.store (b : Bank) (r : Reg) (v : Word) : Bank :=
  match r with
  | .pc => { b with pc := v }
  | .ac => { b with ac := v }
  | .sp => { b with sp := v }
  | .ir => { b with ir := v }
  | .tir => { b with tir := v }
  | .zero | .plus1 | .minus1 | .amask | .smask => b
  | .ra => { b with ra := v }
  | .rb => { b with rb := v }
  | .rc => { b with rc := v }
  | .rd => { b with rd := v }
  | .re => { b with re := v }
  | .rf => { b with rf := v }

/-- The width check of the FixedWidthRegister rule R17: a value that does not fit is rejected
(conflict C1), never masked. -/
def checkWidth (v : Nat) : Except ErrorKind Word :=
  if v < 2 ^ 16 then .ok (BitVec.ofNat 16 v) else .error .overflow

/-- `write(X, v)` of rule R17 on a bank register: `ImmutableWrite` is checked before `Overflow`. -/
def Bank.write (b : Bank) (r : Reg) (v : Nat) : Except ErrorKind Bank :=
  if isMutable r then
    match checkWidth v with
    | .ok w => .ok (b.store r w)
    | .error e => .error e
  else .error .immutableWrite

/-- The bank after a write: unchanged when the write is rejected (rule R17). -/
def Bank.after (b : Bank) (r : Reg) (v : Nat) : Bank :=
  match b.write r v with
  | .ok b' => b'
  | .error _ => b

/-- What a write reports: one event when it is rejected (rules R17, R92). -/
def Bank.reports (b : Bank) (r : Reg) (v : Nat) : List Event :=
  match b.write r v with
  | .ok _ => []
  | .error e => [e.event]

/-- A bank write inside a cycle: a rejected write leaves the register and is reported, and the cycle
goes on (rules R17, R55). -/
def State.writeReg (r : Reg) (v : Nat) (s : State) : State :=
  { s with bank := s.bank.after r v, events := s.events ++ s.bank.reports r v }

/-! ## Backing memory (rules R27, R30 to R36) -/

/-- The listed word at an address, if that word was ever seeded or written. -/
def Memory.lookup (m : Memory) (a : Nat) : Option Word :=
  match m with
  | [] => none
  | (k, v) :: rest => if k = a then some v else Memory.lookup rest a

/-- What an unlisted address holds: an unspecified value that depends on the address alone (rule
R32). Log entry 5. -/
def Memory.unwritten (a : Word) : Word := Config.memInit a

/-- `MemRead(a)` (rule R7): every address is an ordinary word (rule R36). -/
def Memory.read (m : Memory) (a : Word) : Word :=
  match Memory.lookup m a.toNat with
  | some v => v
  | none => Memory.unwritten a

/-- Insertion that keeps the addresses strictly rising. -/
def Memory.insert (m : Memory) (a : Nat) (v : Word) : Memory :=
  match m with
  | [] => [(a, v)]
  | (k, u) :: rest =>
    if a < k then (a, v) :: (k, u) :: rest
    else if a = k then (a, v) :: rest
    else (k, u) :: Memory.insert rest a v

/-- `MemWrite(a, v)` (rule R7): one whole word (rule R35). -/
def Memory.write (m : Memory) (a v : Word) : Memory := Memory.insert m a.toNat v

/-- Every listed address is at least `lo` and a memory address, and they rise strictly. -/
def Memory.wfFrom (lo : Nat) : Memory → Bool
  | [] => true
  | (k, _) :: rest => decide (lo ≤ k) && decide (k < 2 ^ 16) && Memory.wfFrom (k + 1) rest

/-- The canonical form: addresses of the `2^W`-word space (rule R30), strictly rising. -/
def Memory.wf (m : Memory) : Bool := Memory.wfFrom 0 m

/-! ## The handshake (rules R75, R77, R78) -/

/-- Step 1, Shift (rule R75). -/
def Handshake.shift (h : Handshake) : Handshake :=
  { lastReq := h.thisReq, lastOp := h.thisOp, thisReq := false, thisOp := .none }

/-- Step 2b, Set (rule R77). -/
def Handshake.set (h : Handshake) (op : MemOp) : Handshake :=
  { h with thisReq := decide (op ≠ .none), thisOp := op }

/-- Step 3, the commit condition (rule R78). -/
def Handshake.commits (h : Handshake) : Bool :=
  h.lastReq && h.thisReq && decide (h.lastOp = h.thisOp)

/-- Rule R78's operation on the data: R79 for Read, R80 for Write. -/
def State.perform (op : MemOp) (s : State) : State :=
  match op with
  | .none => s
  | .read => s.setMbr (s.mem.read s.mar)
  | .write => s.setMem (s.mem.write s.mar s.mbr)

/-- A cycle's memory port, for a word whose request is `op`: shift, set, and on the commit condition
perform and clear (rules R75, R77, R78, R81). -/
def State.request (op : MemOp) (s : State) : State :=
  let h := s.hs.shift.set op
  if h.commits then (s.perform h.thisOp).setHs Handshake.idle else s.setHs h

end Sys2Proof.Machine
end

