-- ==== Sys2Proof/Machine/Flags.lean ====
section
/-! DEFINITION. The ALU's flags (rule R59). -/

namespace Sys2Proof.Machine

/-- The sign bit, the top bit of the width. -/
def signBit (r : Word) : Bool := r.getLsbD 15

/-- Z: the result is 0 (rule R59). -/
def zFlag (r : Word) : Bool := decide (r = 0)

/-- N: the result is not 0 and its sign bit is set (rule R59). -/
def nFlag (r : Word) : Bool := !zFlag r && signBit r

/-- The ALU's output and the flags it gives, before the shifter (rules R53, R59). -/
def State.aluResult (r : Word) (s : State) : State :=
  (s.setAluOut r).setFlags (zFlag r) (nFlag r)

end Sys2Proof.Machine
end

