-- ==== Sys2Proof/Machine/Operands.lean ====
section
/-! DEFINITION. Operand reads: the buses (rules R16, R69, R70). -/

namespace Sys2Proof.Machine

/-- The value on a bus bound to a bank register: a bus is an index, not storage (rules R15, R16). -/
def State.bus (s : State) (r : Reg) : Word := s.bank.read r

/-- The ALU's A input is latched (rule R69). -/
def State.routeA (v : Word) (s : State) : State := s.setAluA v

/-- The ALU's B input is the value on bus B (rule R70). -/
def State.routeB (b : Reg) (s : State) : State := s.setAluB (s.bus b)

end Sys2Proof.Machine
end

