-- ==== Sys2Proof/Machine/Alu.lean ====
section
/-! DEFINITION. The ALU operations (rules R58 to R63). Input A is the latch AMUX wrote; input B is
bus B, latched by the ALU row (rule R70; log entry 12). -/

namespace Sys2Proof.Machine

/-- `(a + b) mod 2^W` (rule R60): no carry in, the carry out is lost. -/
def aluSum (a b : Word) : Word := BitVec.ofNat 16 ((a.toNat + b.toNat) % 2 ^ 16)

/-- `a AND b` (rule R61). -/
def aluConj (a b : Word) : Word := a &&& b

/-- `a` (rule R62). -/
def aluPass (a : Word) : Word := a

/-- `(2^W − 1) − a` (rule R63). -/
def aluCompl (a : Word) : Word := BitVec.ofNat 16 (2 ^ 16 - 1 - a.toNat)

/-- ALU_ADD (rule R60). -/
def execAluAdd (b : Reg) (s : State) : Host.Outcome State Fault Refusal :=
  let t := s.routeB b
  .next (t.aluResult (aluSum t.lat.aluA t.lat.aluB))

/-- ALU_AND (rule R61). -/
def execAluAnd (b : Reg) (s : State) : Host.Outcome State Fault Refusal :=
  let t := s.routeB b
  .next (t.aluResult (aluConj t.lat.aluA t.lat.aluB))

/-- ALU_PASSA (rule R62): bus B is bound but ignored. -/
def execAluPassA (b : Reg) (s : State) : Host.Outcome State Fault Refusal :=
  let t := s.routeB b
  .next (t.aluResult (aluPass t.lat.aluA))

/-- ALU_NOTA (rule R63): bus B is bound but ignored. -/
def execAluNotA (b : Reg) (s : State) : Host.Outcome State Fault Refusal :=
  let t := s.routeB b
  .next (t.aluResult (aluCompl t.lat.aluA))

end Sys2Proof.Machine
end

