-- ==== Sys2Proof/Machine/Branch.lean ====
section
/-! DEFINITION. The next MPC: COND_NONE, COND_N, COND_Z, COND_ALWAYS (rules R83 to R88). -/

namespace Sys2Proof.Machine

/-- `NEXT(MPC, COND, ADDR, Z, N)` of rule R83, the hold included (D28, log entry 19). -/
def nextMpc (mpc : Nat) (cond : BitVec 2) (addr : BitVec 8) (z n : Bool) : Nat :=
  if !z && !n then mpc + 1
  else if cond = 0b11#2 then addr.toNat
  else if n && cond.getLsbD 0 then addr.toNat
  else if z && cond.getLsbD 1 then addr.toNat
  else mpc

/-- The branch resolution with this cycle's flags. -/
def State.branch (cond : BitVec 2) (addr : BitVec 8) (s : State) : State :=
  s.setMpc (nextMpc s.mpc cond addr s.z s.n)

/-- COND_NONE (rule R84): ADDR is ignored, so none is given. -/
def execCondNone (s : State) : Host.Outcome State Fault Refusal :=
  .next (s.branch 0b00#2 0)

/-- COND_N (rule R85). -/
def execCondN (addr : BitVec 8) (s : State) : Host.Outcome State Fault Refusal :=
  .next (s.branch 0b01#2 addr)

/-- COND_Z (rule R86). -/
def execCondZ (addr : BitVec 8) (s : State) : Host.Outcome State Fault Refusal :=
  .next (s.branch 0b10#2 addr)

/-- COND_ALWAYS (rule R87): it jumps only when Z or N is set. -/
def execCondAlways (addr : BitVec 8) (s : State) : Host.Outcome State Fault Refusal :=
  .next (s.branch 0b11#2 addr)

end Sys2Proof.Machine
end

