-- ==== Sys2Proof/Machine/Datapath.lean ====
section
/-! DEFINITION. Datapath routing and write-back: AMUX_A, AMUX_MBR, LD_MAR, LD_MBR, ENC (rules R69 to
R73). -/

namespace Sys2Proof.Machine

/-- AMUX_A (rule R69): `aluA <- R[MIR.A]`. -/
def execAmuxA (a : Reg) (s : State) : Host.Outcome State Fault Refusal :=
  .next (s.routeA (s.bus a))

/-- AMUX_MBR (rule R69): `aluA <- MBR`. -/
def execAmuxMbr (s : State) : Host.Outcome State Fault Refusal :=
  .next (s.routeA s.mbr)

/-- LD_MAR (rule R71): `MAR <- R[MIR.B]`, from bus B and unmasked. -/
def execLdMar (b : Reg) (s : State) : Host.Outcome State Fault Refusal :=
  .next (s.setMar (s.bus b))

/-- LD_MBR (rule R72): `MBR <- SHOUT`. -/
def execLdMbr (s : State) : Host.Outcome State Fault Refusal :=
  .next (s.setMbr s.shout)

/-- ENC (rule R73): `R[MIR.C] <- SHOUT`, or the event `ImmutableWrite` on a constant. -/
def execEnc (c : Reg) (s : State) : Host.Outcome State Fault Refusal :=
  .next (s.writeReg c s.shout.toNat)

end Sys2Proof.Machine
end

