-- ==== Sys2Proof/Machine/MemoryPort.lean ====
section
/-! DEFINITION. The memory port rows: MEM_NONE, MEM_RD, MEM_WR, MEM_CONFLICT (rules R74 to R81). -/

namespace Sys2Proof.Machine

/-- MEM_NONE (rule R74): the port shifts (R75) and no request is set. -/
def execMemNone (s : State) : Host.Outcome State Fault Refusal :=
  .next (s.request .none)

/-- MEM_RD (rules R74, R79): a Read request; it commits in the second of two such cycles. -/
def execMemRd (s : State) : Host.Outcome State Fault Refusal :=
  .next (s.request .read)

/-- MEM_WR (rules R74, R80): a Write request; it commits in the second of two such cycles. -/
def execMemWr (s : State) : Host.Outcome State Fault Refusal :=
  .next (s.request .write)

/-- MEM_CONFLICT (rule R76): the port has shifted (R75), then the fatal `ConflictingMemoryOp`. -/
def execMemConflict (s : State) : Host.Outcome State Fault Refusal :=
  .next ((s.setHs s.hs.shift).raiseFatal .conflictingMemoryOp)

end Sys2Proof.Machine
end

