-- ==== Sys2Proof/Machine/Shifter.lean ====
section
/-! DEFINITION. The shifter operations (rules R64 to R68). The input is the ALU output of the same
cycle; no flag changes. -/

namespace Sys2Proof.Machine

/-- `x >> 1`, zero fill (rule R66). -/
def shiftRight1 (x : Word) : Word := BitVec.ofNat 16 (x.toNat / 2)

/-- `(x << 1) mod 2^W` (rule R67). -/
def shiftLeft1 (x : Word) : Word := BitVec.ofNat 16 (x.toNat * 2 % 2 ^ 16)

/-- SH_PASS (rule R65): `SHOUT <- x`. -/
def execShPass (s : State) : Host.Outcome State Fault Refusal :=
  .next (s.setShout s.lat.aluOut)

/-- SH_SRL1 (rule R66): `SHOUT <- x >> 1`. -/
def execShSrl1 (s : State) : Host.Outcome State Fault Refusal :=
  .next (s.setShout (shiftRight1 s.lat.aluOut))

/-- SH_SLL1 (rule R67): `SHOUT <- (x << 1) mod 2^W`. -/
def execShSll1 (s : State) : Host.Outcome State Fault Refusal :=
  .next (s.setShout (shiftLeft1 s.lat.aluOut))

/-- SH_UNDEF (rule R68): the event `UndefinedShiftOp`; SHOUT keeps its value. -/
def execShUndef (s : State) : Host.Outcome State Fault Refusal :=
  .next (s.emit .undefinedShiftOp)

end Sys2Proof.Machine
end

