-- ==== Sys2Proof/Machine/Dispatch.lean ====
section
/-! DEFINITION. One arm per row of the opcode table. -/

namespace Sys2Proof.Machine

def exec (i : Instr) (s : State) : Host.Outcome State Fault Refusal :=
  match i with
  | .amuxA a => Sys2Proof.Machine.execAmuxA a s
  | .amuxMbr => Sys2Proof.Machine.execAmuxMbr s
  | .aluAdd b => Sys2Proof.Machine.execAluAdd b s
  | .aluAnd b => Sys2Proof.Machine.execAluAnd b s
  | .aluPassA b => Sys2Proof.Machine.execAluPassA b s
  | .aluNotA b => Sys2Proof.Machine.execAluNotA b s
  | .shPass => Sys2Proof.Machine.execShPass s
  | .shSrl1 => Sys2Proof.Machine.execShSrl1 s
  | .shSll1 => Sys2Proof.Machine.execShSll1 s
  | .shUndef => Sys2Proof.Machine.execShUndef s
  | .ldMbr => Sys2Proof.Machine.execLdMbr s
  | .ldMar b => Sys2Proof.Machine.execLdMar b s
  | .memNone => Sys2Proof.Machine.execMemNone s
  | .memRd => Sys2Proof.Machine.execMemRd s
  | .memWr => Sys2Proof.Machine.execMemWr s
  | .memConflict => Sys2Proof.Machine.execMemConflict s
  | .enc c => Sys2Proof.Machine.execEnc c s
  | .condNone => Sys2Proof.Machine.execCondNone s
  | .condN addr => Sys2Proof.Machine.execCondN addr s
  | .condZ addr => Sys2Proof.Machine.execCondZ addr s
  | .condAlways addr => Sys2Proof.Machine.execCondAlways addr s

end Sys2Proof.Machine
end

