-- ==== Sys2Proof/Machine/Sequencer.lean ====
section
/-! DEFINITION. The full cycle (rules R50 to R56): what a step does around `exec`. -/

namespace Sys2Proof.Machine

/-- The program word at MPC, if there is one (rules R18, R26, R51). -/
def State.programWord (s : State) : Option UWord := s.prog[s.mpc]?

/-- The rows of a word, one after another, each on the state the row before it left. A fatal error
ends the cycle at the row that raised it (rule R55); a non-fatal one does not. -/
def runRows : Microinstruction → State → Host.Outcome State Fault Refusal
  | [], s => .next s
  | i :: rest, s =>
    match exec i s with
    | .next t => if t.fault.isSome then .next t else runRows rest t
    | .fault r => .fault r
    | .refused r => .refused r

/-- The end of a cycle, normal or aborted: the ALU's latches are cleared (rule R24). -/
def endCycle : Host.Outcome State Fault Refusal → Host.Outcome State Fault Refusal
  | .next t => .next t.clearLatches
  | .fault r => .fault r
  | .refused r => .refused r

/-- One cycle from a state with no fault: fetch (rule R51), then the rows of the word in MIR. -/
def cycle (s : State) : Host.Outcome State Fault Refusal :=
  match s.programWord with
  | none => .next (s.raiseFatal .programCounterOutOfRange)
  | some w => endCycle (runRows (decode w) (s.setMir w))

/-- One step: no step once `fault` is set (rules R50, R57). -/
def fullCycle (s : State) : Host.Outcome State Fault Refusal :=
  match s.fault with
  | some k => .fault (.stopped k)
  | none => cycle s

/-- `prog` with `w` at index `i`. Program memory has no gaps, so a program too short to have that
index is lengthened with copies of `w`. -/
def placeWord (prog : List UWord) (i : Nat) (w : UWord) : List UWord :=
  if i < prog.length then prog.set i w
  else prog ++ List.replicate (i + 1 - prog.length) w

end Sys2Proof.Machine
end

