-- ==== Sys2Proof/Machine/Step.lean ====
section
/-! DEFINITION. The step, and the placing of a word where the next step fetches it. -/

namespace Sys2Proof.Machine

/-- One step of the machine: one full cycle (rules R8, R50, R105). -/
def step (s : State) : Host.Outcome State Fault Refusal := fullCycle s

/-- `s` with the word at program index MPC, and no fault, so that the next step runs it. It stands
for the host's program load (rule R102): log entry 14. -/
def State.withFetchWord (s : State) (_nbits w : Nat) : State :=
  { s with prog := placeWord s.prog s.mpc (BitVec.ofNat 32 w), fault := none }

end Sys2Proof.Machine
end

