-- ==== Sys2Proof/Machine/HostPort.lean ====
section
/-! DEFINITION. The host interface of rules R102 to R105. Seeding acts on a `Setup`, which exists only
before the first cycle (D22), and a failed seed is answered to the host and recorded nowhere (log entry
26). -/

namespace Sys2Proof.Machine

/-- Program load (rule R102): the ordered words become PROG, and their number PROG_LEN. -/
def Setup.load (words : List UWord) (su : Setup) : Setup := { su with prog := words }

/-- The fixed name table of rule R12. -/
def nameTable : List (String × Reg) :=
  [("PC", .pc), ("AC", .ac), ("SP", .sp), ("IR", .ir), ("TIR", .tir), ("0", .zero), ("+1", .plus1),
    ("-1", .minus1)] ++
  [("AMASK", .amask), ("SMASK", .smask), ("A", .ra), ("B", .rb), ("C", .rc), ("D", .rd), ("E", .re),
    ("F", .rf)]

/-- `registerByName(name)` (rule R103). -/
def registerByName (name : String) : Except ErrorKind Reg :=
  match nameTable.find? (fun p => p.1 == name) with
  | some p => .ok p.2
  | none => .error .unknownRegisterName

/-- `seed(name, v)` (rule R103): the runtime write check of rule R17. -/
def Setup.seed (name : String) (v : Nat) (su : Setup) : Except ErrorKind Setup :=
  match registerByName name with
  | .error e => .error e
  | .ok r =>
    match su.bank.write r v with
    | .error e => .error e
    | .ok b => .ok { su with bank := b }

/-- The host's initial MAR, checked by rule R17 (rule R103, D18). -/
def Setup.seedMar (v : Nat) (su : Setup) : Except ErrorKind Setup :=
  match checkWidth v with
  | .error e => .error e
  | .ok w => .ok { su with mar := w }

/-- The host's initial MBR, checked by rule R17 (rule R103, D18). -/
def Setup.seedMbr (v : Nat) (su : Setup) : Except ErrorKind Setup :=
  match checkWidth v with
  | .error e => .error e
  | .ok w => .ok { su with mbr := w }

/-- `memseed(a, v)` (rule R104): `Overflow` and no effect when the value or the address is out of
range (D25). -/
def Setup.memseed (a v : Nat) (su : Setup) : Except ErrorKind Setup :=
  match checkWidth a, checkWidth v with
  | .ok wa, .ok wv => .ok { su with mem := su.mem.write wa wv }
  | .error e, _ => .error e
  | .ok _, .error e => .error e

/-- A seed the host attempts: a failure is non-fatal and has no effect (rule R103).

DESIGN CHOICE, log entry 26: a failed seed leaves no entry in `events`, although R90 and R92 say that
each error surfaces as an event. It surfaces to the host alone, as the `ErrorKind` that the seed
answers, whose event with its severity is `ErrorKind.event`. -/
def Setup.attempt (r : Except ErrorKind Setup) (su : Setup) : Setup :=
  match r with
  | .ok su' => su'
  | .error _ => su

/-- The fatal error as the event it surfaces as (rule R92). -/
def fatalEvent : Option FatalKind → List Event
  | some k => [k.toErrorKind.event]
  | none => []

/-- What a cycle from `s` to `t` reports to the host: the events it emitted, then its fatal error if
it raised one (rules R92, R93, R105). -/
def reported (s t : State) : List Event :=
  t.events.drop s.events.length ++ (if s.fault.isSome then [] else fatalEvent t.fault)

/-- `runFullCycle()` (rule R105): one step, with what it reports; none once the machine has stopped. -/
def runFullCycle (s : State) : Option (State × List Event) :=
  match step s with
  | .next t => some (t, reported s t)
  | .fault _ => none
  | .refused _ => none

end Sys2Proof.Machine
end

