-- ==== Sys2Proof/Safety.lean ====
section
/-! DEFINITION. The terms claims are stated in: the cycle of rule R50 written a second time as one
function of the fields, the invariant of the machine, runs, and what a finished run is (rule R108). -/

namespace Sys2Proof.Safety

open Sys2Proof.Machine

/-! ## One cycle's inputs -/

/-- The next step runs the word `w`: no fault is recorded and program memory has `w` at MPC. -/
structure Fetches (s : State) (w : UWord) : Prop where
  noFault : s.fault = none
  word : s.prog[s.mpc]? = some w

/-- The ALU's A input of this cycle (rule R69). -/
def inputA (f : Fields) (s : State) : Word :=
  if f.amux = 1 then s.mbr else s.bank.read (Reg.ofIndex f.a)

/-- The ALU's B input of this cycle (rule R70). -/
def inputB (f : Fields) (s : State) : Word := s.bank.read (Reg.ofIndex f.b)

/-- The request of a word that is no conflict (rule R74). -/
def requestOf (f : Fields) : MemOp :=
  if f.rd = 1 then .read else if f.wr = 1 then .write else .none

/-- RD and WR both set (rule R76). -/
def isConflict (f : Fields) : Prop := f.rd = 1 ∧ f.wr = 1

/-- The address an access committing this cycle uses: MAR as subcycle 2 leaves it (rules R71, R79,
R80). -/
def addressAtCommit (f : Fields) (s : State) : Word := if f.mar = 1 then inputB f s else s.mar

/-- What an ALU row that computes `r` leaves: the B latch, the output latch and the flags of rule R59;
every other element as it was. -/
def aluWrites (s : State) (b : Reg) (r : Word) : State :=
  { s with
    lat := { s.lat with aluB := s.bank.read b, aluOut := r }
    z := decide (r = 0)
    n := decide (r ≠ 0 ∧ r.getLsbD 15 = true) }

/-- Whether a cycle with request `op` commits an access: the request is the previous cycle's, and is
still pending (rules R75, R77, R78). -/
def commitsNow (s : State) (op : MemOp) : Bool :=
  s.hs.thisReq && decide (op ≠ .none) && decide (s.hs.thisOp = op)

/-! ## Rule R50, line by line, in natural-number arithmetic -/

/-- The table of rules R60 to R63. -/
def referenceAlu (op : BitVec 2) (a b : Nat) : Nat :=
  if op = 0 then (a + b) % 2 ^ 16
  else if op = 1 then a &&& b
  else if op = 2 then a
  else 2 ^ 16 - 1 - a

/-- The table of rules R65 to R67; `SH = 11` is not asked. -/
def referenceShift (op : BitVec 2) (x : Nat) : Nat :=
  if op = 0 then x
  else if op = 1 then x / 2
  else x * 2 % 2 ^ 16

/-- This cycle's ALU output as a number. -/
def referenceResult (f : Fields) (s : State) : Nat :=
  referenceAlu f.alu (inputA f s).toNat (inputB f s).toNat

/-- The flags of rule R59, from the number. -/
def referenceZ (r : Nat) : Bool := r == 0
def referenceN (r : Nat) : Bool := r != 0 && decide (2 ^ 15 ≤ r)

/-- SHOUT after subcycle 3. -/
def referenceShout (f : Fields) (s : State) : Word :=
  if f.sh = 3 then s.shout else BitVec.ofNat 16 (referenceShift f.sh (referenceResult f s))

/-- The table of rule R83. -/
def referenceNext (mpc : Nat) (cond : BitVec 2) (addr : BitVec 8) (z n : Bool) : Nat :=
  match z, n with
  | false, false => mpc + 1
  | false, true => if cond = 1 ∨ cond = 3 then addr.toNat else mpc
  | true, false => if cond = 2 ∨ cond = 3 then addr.toNat else mpc
  | true, true => if cond = 0 then mpc else addr.toNat

/-- Subcycle 4 after the memory port: LD_MBR, ENC and the branch (rules R72, R73, R83). -/
def referenceWriteBack (f : Fields) (z n : Bool) (s : State) : State :=
  let c := Reg.ofIndex f.c
  { s with
    mbr := if f.mbr = 1 then s.shout else s.mbr
    bank := if f.enc = 1 ∧ isMutable c = true then s.bank.store c s.shout else s.bank
    events := if f.enc = 1 ∧ isMutable c = false then s.events ++ [ErrorKind.immutableWrite.event]
      else s.events
    mpc := referenceNext s.mpc f.cond f.addr z n }

/-- One full cycle (rule R50), for a state with no fault. -/
def referenceCycle (s : State) : State :=
  match s.prog[s.mpc]? with
  | none => { s with fault := some .programCounterOutOfRange }
  | some w =>
    let f := unpack w
    let r := referenceResult f s
    let computed : State :=
      { s with
        mir := w
        mar := if f.mar = 1 then inputB f s else s.mar
        z := referenceZ r
        n := referenceN r
        shout := referenceShout f s
        events := if f.sh = 3 then s.events ++ [ErrorKind.undefinedShiftOp.event] else s.events
        lat := Latches.clear }
    let shifted : Handshake := ⟨s.hs.thisReq, false, s.hs.thisOp, .none⟩
    if f.rd = 1 ∧ f.wr = 1 then
      { computed with hs := shifted, fault := some .conflictingMemoryOp }
    else if f.rd = 1 then
      if s.hs.thisReq = true ∧ s.hs.thisOp = .read then
        referenceWriteBack f computed.z computed.n
          { computed with hs := Handshake.idle, mbr := computed.mem.read computed.mar }
      else
        referenceWriteBack f computed.z computed.n
          { computed with hs := ⟨s.hs.thisReq, true, s.hs.thisOp, .read⟩ }
    else if f.wr = 1 then
      if s.hs.thisReq = true ∧ s.hs.thisOp = .write then
        referenceWriteBack f computed.z computed.n
          { computed with hs := Handshake.idle, mem := computed.mem.write computed.mar s.mbr }
      else
        referenceWriteBack f computed.z computed.n
          { computed with hs := ⟨s.hs.thisReq, true, s.hs.thisOp, .write⟩ }
    else referenceWriteBack f computed.z computed.n { computed with hs := shifted }

/-! ## The handshake over a sequence of requests (rule R82) -/

/-- The port after one cycle that requests `op`. -/
def portAfter (h : Handshake) (op : MemOp) : Handshake :=
  if (h.shift.set op).commits then Handshake.idle else h.shift.set op

/-- For each cycle of a sequence of requests, whether an access commits in it. -/
def commitTrace : Handshake → List MemOp → List Bool
  | _, [] => []
  | h, op :: ops => (h.shift.set op).commits :: commitTrace (portAfter h op) ops

/-! ## The invariant of the machine between cycles -/

/-- Request bits agree with the operations they stand for, and no access is left to commit. -/
structure PortCoherent (h : Handshake) : Prop where
  last : h.lastReq = decide (h.lastOp ≠ .none)
  this : h.thisReq = decide (h.thisOp ≠ .none)
  noneLeft : h.commits = false

/-- What holds before the first cycle and after every cycle. -/
structure Inv (s : State) : Prop where
  /-- Memory keeps its canonical form. -/
  memory : s.mem.wf = true
  /-- Z and N are never both 1 (rule R59). -/
  flags : ¬(s.z = true ∧ s.n = true)
  /-- The port is idle, or waits for the second cycle of a request (rules R22, R81). -/
  port : PortCoherent s.hs
  /-- The ALU's latches carry nothing from one cycle to the next (rules R11, R24). -/
  latches : s.lat = Latches.clear
  /-- Only the two non-fatal kinds a microinstruction can raise are events (rules R28, R90). -/
  events : ∀ e ∈ s.events,
    e = ErrorKind.undefinedShiftOp.event ∨ e = ErrorKind.immutableWrite.event

/-! ## Runs and their end -/

/-- `t` is reached from `s` by full cycles. -/
inductive Reaches : State → State → Prop
  | refl (s : State) : Reaches s s
  | step {s t u : State} : Reaches s t → Machine.step t = .next u → Reaches s u

/-- A Stop word of index `h` (rule R108), but for its flags. -/
structure IsStopWord (f : Fields) (h : Nat) : Prop where
  enc : f.enc = 0
  mbr : f.mbr = 0
  mar : f.mar = 0
  rd : f.rd = 0
  wr : f.wr = 0
  sh : f.sh ≠ 3
  cond : f.cond = 3
  addr : f.addr.toNat = h

/-- Halted at `h` (rule R108 (a)): a Stop word there, whose ALU operation on the registers it reads
gives Z or N. -/
structure Halted (h : Nat) (s : State) : Prop where
  at_h : s.mpc = h
  running : s.fault = none
  stop : ∃ w, s.prog[h]? = some w ∧ IsStopWord (unpack w) h ∧
    (referenceZ (referenceResult (unpack w) s) || referenceN (referenceResult (unpack w) s)) = true

/-- Faulted (rule R108 (b)). -/
def Faulted (s : State) : Prop := s.fault ≠ none

/-- A finished run, for a claim that names the halt index `h` (rule R108). -/
def Finished (h : Nat) (s : State) : Prop := Halted h s ∨ Faulted s

/-- A safe state: no fatal error is recorded (D13: a claim takes "no fault" as a premise). -/
def Safe (s : State) : Prop := s.fault = none

end Sys2Proof.Safety
end

