-- ==== Sys2Proof/Certificates/Slice0/Obligations.lean ====
section
/-! DEFINITION. The statements for the provers. -/

open Sys2Proof Sys2Proof.Machine Sys2Proof.Safety

/-! ## Encoding -/

/-- R42: extraction is the exact inverse of packing, both ways. -/
def Obligations.FieldsPackAndUnpackExactly : Prop :=
  (∀ f : Fields, unpack (pack f) = f) ∧ (∀ w : UWord, pack (unpack w) = w)

/-- Every well-formed list of rows is what its word decodes to. -/
def Obligations.DecodeOfEncodeIsTheMicroinstruction : Prop :=
  ∀ l : Microinstruction, WellFormed l = true → decode (encode l) = l

/-- R46, R47: every word decodes, to one row per group in cycle order. -/
def Obligations.EveryWordDecodesWellFormed : Prop :=
  ∀ w : UWord, WellFormed (decode w) = true ∧ decodeBits 32 w.toNat = .ok (decode w)

/-- A word decodes to exactly the rows whose mask and match select it (the opcode table), and each
row is read back from its own bits, at every operand. -/
def Obligations.EveryRowDecodesByItsMaskAndMatch : Prop :=
  (∀ (w : UWord) (i : Instr), i ∈ decode w → w &&& i.rowMask = i.rowMatch) ∧
  (∀ i : Instr, i ∈ decode (encodeRow i)) ∧
  (∀ (w : UWord) (i : Instr), w &&& i.rowMask = i.rowMatch →
    ∃ j ∈ decode w, j.group = i.group ∧ j.rowMatch = i.rowMatch)

/-- Two words with the same rows differ at most in fields that no row uses: A with AMUX = 1, C with
ENC = 0, ADDR with COND = 00. -/
def Obligations.DecodeDropsOnlyUnusedFields : Prop :=
  ∀ v w : UWord, decode v = decode w →
    (∀ k < 32, ¬(8 ≤ k ∧ k < 12 ∧ (unpack w).amux = 1) → ¬(16 ≤ k ∧ k < 20 ∧ (unpack w).enc = 0) →
      ¬(k < 8 ∧ (unpack w).cond = 0) → v.getLsbD k = w.getLsbD k)

/-- Words the spec prints (95_test_vectors.md), decoded. -/
def Obligations.PrintedWordsDecodeToTheirRows : Prop :=
  decode 0x001CBA00 =
    [.amuxA .ra, .aluAdd .rb, .shPass, .memNone, .enc .rc, .condNone] ∧
  decode 0x11A0ED00 =
    [.amuxA .rd, .ldMar .re, .aluPassA .re, .shPass, .memWr, .ldMbr, .condNone] ∧
  decode 0x6C1D9A01 =
    [.amuxA .ra, .aluAnd .smask, .shSll1, .memNone, .enc .rd, .condAlways 1] ∧
  decode 0x401A7A03 =
    [.amuxA .ra, .aluAdd .minus1, .shPass, .memNone, .enc .ra, .condZ 3] ∧
  decode 0x901F5000 =
    [.amuxMbr, .aluPassA .zero, .shPass, .memNone, .enc .rf, .condNone] ∧
  decode 0x10FCBA00 =
    [.amuxA .ra, .ldMar .rb, .aluPassA .rb, .shPass, .memConflict, .enc .rc, .condNone] ∧
  decode 0xFFFFFFFF =
    [.amuxMbr, .ldMar .rf, .aluNotA .rf, .shUndef, .memConflict, .ldMbr, .enc .rf, .condAlways 255]

/-- The one row that stands for a word (a convention of the model, log entry 13) is a row of the
word; a bit string that is not one 32-bit word has none. -/
def Obligations.TableWordAnswersARowOfTheWord : Prop :=
  ∀ nbits w : Nat,
    (¬(nbits = 32 ∧ w < 2 ^ 32) → decodeTableWord nbits w = none) ∧
    (nbits = 32 → w < 2 ^ 32 →
      ∃ i, decodeTableWord nbits w = some i ∧ i ∈ decode (BitVec.ofNat 32 w))

/-! ## One row: its effect, all of it, from every state

That one row is executed by itself is the model's choice (log entry 11), and the latches are the
model's own fields (log entry 12). -/

/-- AMUX_A and AMUX_MBR complete: the A latch, and nothing else. -/
def Obligations.AmuxRowsSelectInputA : Prop :=
  ∀ s : State,
    (∀ a : Reg, exec (.amuxA a) s = .next { s with lat := { s.lat with aluA := s.bank.read a } }) ∧
    exec .amuxMbr s = .next { s with lat := { s.lat with aluA := s.mbr } }

/-- ALU_ADD, ALU_AND, ALU_PASSA and ALU_NOTA complete with their result and flags. -/
def Obligations.AluRowsComputeResultAndFlags : Prop :=
  ∀ (s : State) (b : Reg),
    (∃ r : Word, exec (.aluAdd b) s = .next (aluWrites s b r) ∧
      r.toNat = (s.lat.aluA.toNat + (s.bank.read b).toNat) % 2 ^ 16) ∧
    (∃ r : Word, exec (.aluAnd b) s = .next (aluWrites s b r) ∧
      ∀ k, r.getLsbD k = (s.lat.aluA.getLsbD k && (s.bank.read b).getLsbD k)) ∧
    (∃ r : Word, exec (.aluPassA b) s = .next (aluWrites s b r) ∧ r = s.lat.aluA) ∧
    (∃ r : Word, exec (.aluNotA b) s = .next (aluWrites s b r) ∧
      r.toNat = 2 ^ 16 - 1 - s.lat.aluA.toNat)

/-- SH_PASS, SH_SRL1 and SH_SLL1 complete with their SHOUT; SH_UNDEF completes with its event and the
kept SHOUT (non-fatal by D26, log entry 17). -/
def Obligations.ShifterRowsWriteTheLatch : Prop :=
  ∀ s : State,
    exec .shPass s = .next { s with shout := s.lat.aluOut } ∧
    (∃ v : Word, exec .shSrl1 s = .next { s with shout := v } ∧
      v.toNat = s.lat.aluOut.toNat / 2) ∧
    (∃ v : Word, exec .shSll1 s = .next { s with shout := v } ∧
      v.toNat = s.lat.aluOut.toNat * 2 % 2 ^ 16) ∧
    exec .shUndef s = .next { s with events := s.events ++ [⟨.undefinedShiftOp, .error⟩] }

/-- LD_MAR and LD_MBR complete: their register, and nothing else. -/
def Obligations.LoadRowsWriteTheirRegister : Prop :=
  ∀ s : State,
    (∀ b : Reg, exec (.ldMar b) s = .next { s with mar := s.bank.read b }) ∧
    exec .ldMbr s = .next { s with mbr := s.shout }

/-- ENC completes: a mutable register takes SHOUT and no other register changes; a constant takes
nothing and the event is recorded. -/
def Obligations.EncRowWritesMutableRegisterOrReports : Prop :=
  ∀ (s : State) (c : Reg),
    (isMutable c = true → ∃ bank : Bank, exec (.enc c) s = .next { s with bank := bank } ∧
      bank.read c = s.shout ∧ ∀ r, r ≠ c → bank.read r = s.bank.read r) ∧
    (isMutable c = false →
      exec (.enc c) s = .next { s with events := s.events ++ [⟨.immutableWrite, .error⟩] })

/-- MEM_NONE, MEM_RD and MEM_WR complete: no request, a request that waits, or a commit. -/
def Obligations.PortRowsRequestOrCommit : Prop :=
  ∀ s : State,
    exec .memNone s = .next { s with hs := ⟨s.hs.thisReq, false, s.hs.thisOp, .none⟩ } ∧
    (commitsNow s .read = true → exec .memRd s =
      .next { s with mbr := s.mem.read s.mar, hs := ⟨false, false, .none, .none⟩ }) ∧
    (commitsNow s .read = false → exec .memRd s =
      .next { s with hs := ⟨s.hs.thisReq, true, s.hs.thisOp, .read⟩ }) ∧
    (commitsNow s .write = true → ∃ mem : Memory, exec .memWr s =
      .next { s with mem := mem, hs := ⟨false, false, .none, .none⟩ } ∧
      mem.read s.mar = s.mbr ∧ ∀ a, a ≠ s.mar → mem.read a = s.mem.read a) ∧
    (commitsNow s .write = false → exec .memWr s =
      .next { s with hs := ⟨s.hs.thisReq, true, s.hs.thisOp, .write⟩ })

/-- MEM_CONFLICT's own effect: the port shifts and the fatal kind is recorded. -/
def Obligations.ConflictRowRecordsTheFatalError : Prop :=
  ∀ s : State, exec .memConflict s =
    .next { s with hs := ⟨s.hs.thisReq, false, s.hs.thisOp, .none⟩,
                   fault := some .conflictingMemoryOp }

/-- COND_NONE, COND_N, COND_Z and COND_ALWAYS complete: MPC by the pseudocode of their own rules
(flags never both 1), and nothing else. -/
def Obligations.BranchRowsSetTheNextMpc : Prop :=
  ∀ (s : State) (addr : BitVec 8), ¬(s.z = true ∧ s.n = true) →
    exec .condNone s =
      .next { s with mpc := if s.z = false ∧ s.n = false then s.mpc + 1 else s.mpc } ∧
    exec (.condN addr) s =
      .next { s with mpc := if s.n = true then addr.toNat
                            else if s.z = true then s.mpc else s.mpc + 1 } ∧
    exec (.condZ addr) s =
      .next { s with mpc := if s.z = true then addr.toNat
                            else if s.n = true then s.mpc else s.mpc + 1 } ∧
    exec (.condAlways addr) s =
      .next { s with mpc := if s.z = true ∨ s.n = true then addr.toNat else s.mpc + 1 }

/-- The frame of every row: what it does not own, it leaves. A Write stores to the word at MAR and to
no other. Model's choice, not the spec's: that a row is executed by itself (log entry 11), and the
clauses on the latches `lat.aluA`, `lat.aluB` and `lat.aluOut` (log entry 12), where only an ALU row
writes the B latch, which R70 latches in subcycle 2. -/
def Obligations.EveryRowChangesOnlyItsOwnState : Prop :=
  ∀ (i : Instr) (s t : State), exec i s = .next t →
    (∀ r, ¬(i = .enc r ∧ isMutable r = true) → t.bank.read r = s.bank.read r) ∧
    (∀ a, ¬(i = .memWr ∧ commitsNow s .write = true ∧ a = s.mar) →
      t.mem.read a = s.mem.read a) ∧
    (i.group ≠ .alu → t.z = s.z ∧ t.n = s.n ∧ t.lat.aluB = s.lat.aluB ∧
      t.lat.aluOut = s.lat.aluOut) ∧
    (i.group ≠ .amux → t.lat.aluA = s.lat.aluA) ∧
    (i.group ≠ .sh ∨ i = .shUndef → t.shout = s.shout) ∧
    (i.group ≠ .mar → t.mar = s.mar) ∧
    (¬(i = .ldMbr ∨ i = .memRd ∧ commitsNow s .read = true) → t.mbr = s.mbr) ∧
    (i.group ≠ .mem → t.hs = s.hs) ∧
    (i.group ≠ .cond → t.mpc = s.mpc) ∧
    (¬(i = .shUndef ∨ ∃ c, i = .enc c ∧ isMutable c = false) → t.events = s.events) ∧
    (i ≠ .memConflict → t.fault = s.fault) ∧
    t.mir = s.mir ∧ t.prog = s.prog

/-! ## The cycle -/

/-- A step fetches the word at MPC into MIR, runs the rows it decodes to with `exec`, one after
another until one records a fatal error, and clears the ALU's latches (log entry 12). -/
def Obligations.StepRunsTheRowsOfTheFetchedWord : Prop :=
  (∀ (s : State) (w : UWord), Fetches s w →
    step s = endCycle (runRows (decode w) { s with mir := w })) ∧
  (∀ s : State, runRows [] s = .next s) ∧
  (∀ (i : Instr) (l : Microinstruction) (s t : State), exec i s = .next t →
    (t.fault = none → runRows (i :: l) s = runRows l t) ∧
    (t.fault ≠ none → runRows (i :: l) s = .next t)) ∧
  (∀ t : State, endCycle (.next t) = .next { t with lat := ⟨0, 0, 0⟩ })

/-- Running a word's rows through `exec` is the four-subcycle pseudocode of rule R50, from every
state with no fault; so every such cycle completes. `referenceCycle` is that pseudocode with the tables
of 41_alu.md to 45_sequencing.md, and it builds in choices that are logged: W = 16 (entries 1, 2), D13
(9), D14 (10), D27 (16), D26 (17), D24 (18), the hold of D28 (19) and D10 (24); the rows and the latches
are the model's own (11, 12). -/
def Obligations.CycleFollowsTheFourSubcycles : Prop :=
  ∀ s : State, s.fault = none → step s = .next (referenceCycle s)

/-- A fetch past the program records `ProgramCounterOutOfRange` and changes nothing else (the spec's
decision D13, log entry 9); a fetch inside the program puts the word in MIR. -/
def Obligations.FetchPastTheProgramFaults : Prop :=
  ∀ s : State, s.fault = none →
    (s.prog.length ≤ s.mpc → step s = .next { s with fault := some .programCounterOutOfRange }) ∧
    (∀ h : s.mpc < s.prog.length, ∃ t, step s = .next t ∧ t.mir = s.prog[s.mpc] ∧
      t.fault ≠ some .programCounterOutOfRange)

/-- Once a fatal error is recorded there is no further step (the spec's decision D13, log entry 9). -/
def Obligations.FaultedMachineTakesNoStep : Prop :=
  ∀ (s : State) (k : FatalKind), s.fault = some k → step s = .fault (.stopped k)

/-- In every cycle one result `r`, by the ALU field (R60 to R63), gives Z and N before the shifter (R59);
SHOUT follows from it by the SH field (R65 to R67). That SH = 01 shifts right and SH = 10 left is the
decision D27 (log entry 16), and W = 16 the decision D1 (log entry 1): the model's choices. None of
these operations reports an error; that is said here for ENC = 0, and for ENC = 1 by
ErrorsOfOneCycleInOrder. -/
def Obligations.AluAndShifterOfEveryCycle : Prop :=
  ∀ (s : State) (w : UWord), Fetches s w →
    let f := unpack w
    ∃ (t : State) (r : Word), step s = .next t ∧
      (f.alu = 0b00#2 → r.toNat = ((inputA f s).toNat + (inputB f s).toNat) % 2 ^ 16) ∧
      (f.alu = 0b01#2 → r = inputA f s &&& inputB f s) ∧
      (f.alu = 0b10#2 → r = inputA f s) ∧
      (f.alu = 0b11#2 → r.toNat = 2 ^ 16 - 1 - (inputA f s).toNat) ∧
      (t.z = true ↔ r = 0) ∧
      (t.n = true ↔ r ≠ 0 ∧ r.getLsbD 15 = true) ∧
      (f.sh = 0b00#2 → t.shout = r) ∧
      (f.sh = 0b01#2 → t.shout.toNat = r.toNat / 2) ∧
      (f.sh = 0b10#2 → t.shout.toNat = r.toNat * 2 % 2 ^ 16) ∧
      (f.sh ≠ 0b11#2 → f.enc = 0 → t.events = s.events)

/-- R68, in every cycle: `SH = 11` keeps SHOUT, reports `UndefinedShiftOp`, and LD_MBR and ENC use the
kept value. Non-fatal by the spec's decision D26 (log entry 17). -/
def Obligations.UndefinedShiftKeepsTheOldOutput : Prop :=
  ∀ (s : State) (w : UWord), Fetches s w → (unpack w).sh = 0b11#2 →
    ∃ t, step s = .next t ∧ t.shout = s.shout ∧
      (⟨.undefinedShiftOp, .error⟩ : Event) ∈ t.events.drop s.events.length ∧
      (¬isConflict (unpack w) → t.fault = none ∧
        ((unpack w).mbr = 1 → t.mbr = s.shout) ∧
        ((unpack w).enc = 1 → isMutable (Reg.ofIndex (unpack w).c) = true →
          t.bank.read (Reg.ofIndex (unpack w).c) = s.shout))

/-- R71, R72, R73: the three loads of a cycle. MAR takes bus B, before the port uses it; MBR takes
SHOUT after the port; the register on bus C takes SHOUT, or is constant and the write is reported. A
conflicting word (R76) does neither of the last two. -/
def Obligations.LoadsAndWriteBackOfEveryCycle : Prop :=
  ∀ (s : State) (w : UWord), Fetches s w →
    let f := unpack w
    let c := Reg.ofIndex f.c
    ∃ t, step s = .next t ∧
      (f.mar = 1 → t.mar = s.bank.read (Reg.ofIndex f.b)) ∧
      (f.mar = 0 → t.mar = s.mar) ∧
      (¬isConflict f → f.mbr = 1 → t.mbr = t.shout) ∧
      (¬isConflict f → f.enc = 1 → isMutable c = true → t.bank.read c = t.shout) ∧
      (¬isConflict f → f.enc = 1 → isMutable c = false →
        t.bank = s.bank ∧ t.events.getLast? = some ⟨.immutableWrite, .error⟩) ∧
      (f.enc = 0 → t.bank = s.bank) ∧
      (¬isConflict f → t.fault = none) ∧
      (isConflict f → t.mbr = s.mbr ∧ t.bank = s.bank)

/-- R83 as its table, with the flags of the same cycle, for every word but a conflict; R84 to R87 are
its rows. The hold is R83's own words (log entry 19). -/
def Obligations.NextMpcFollowsTheTable : Prop :=
  ∀ (s : State) (w : UWord), Fetches s w → ¬isConflict (unpack w) →
    let f := unpack w
    ∃ t, step s = .next t ∧
      (t.z = false → t.n = false → t.mpc = s.mpc + 1) ∧
      (t.z = false → t.n = true → (f.cond = 0b01#2 ∨ f.cond = 0b11#2 → t.mpc = f.addr.toNat) ∧
        (f.cond = 0b00#2 ∨ f.cond = 0b10#2 → t.mpc = s.mpc)) ∧
      (t.z = true → t.n = false → (f.cond = 0b10#2 ∨ f.cond = 0b11#2 → t.mpc = f.addr.toNat) ∧
        (f.cond = 0b00#2 ∨ f.cond = 0b01#2 → t.mpc = s.mpc)) ∧
      ¬(t.z = true ∧ t.n = true)

/-- R75, R77, R78, R79, R80, R81: the port of a cycle that is no conflict. The request is this word's;
it commits exactly when it is the pending request of the cycle before; a commit leaves the port idle;
a Read delivers the word at the new MAR, a Write stores the MBR of the cycle's start. -/
def Obligations.PortOfEveryCycle : Prop :=
  ∀ (s : State) (w : UWord), Fetches s w → ¬isConflict (unpack w) →
    let f := unpack w
    let op := requestOf f
    ∃ t, step s = .next t ∧
      (commitsNow s op = true → t.hs = ⟨false, false, .none, .none⟩) ∧
      (commitsNow s op = false → t.hs = ⟨s.hs.thisReq, decide (op ≠ .none), s.hs.thisOp, op⟩) ∧
      (op = .read → commitsNow s op = true → f.mbr = 0 → t.mbr = s.mem.read t.mar) ∧
      (op = .write → commitsNow s op = true → t.mem.read t.mar = s.mbr) ∧
      (¬(op = .read ∧ commitsNow s op = true) → f.mbr = 0 → t.mbr = s.mbr) ∧
      (¬(op = .write ∧ commitsNow s op = true) → t.mem = s.mem)

/-- Rule R54's two visible cases of its order: a committing Read with LD_MBR leaves SHOUT in MBR, and a
committing Write with LD_MBR stores the old MBR and then loads the new one. -/
def Obligations.PortComesBeforeTheMbrLoad : Prop :=
  ∀ (s : State) (w : UWord), Fetches s w → (unpack w).mbr = 1 → ¬isConflict (unpack w) →
    ∃ t, step s = .next t ∧ t.mbr = t.shout ∧
      (requestOf (unpack w) = .write → commitsNow s .write = true →
        t.mem.read t.mar = s.mbr ∧ ∀ a, a ≠ t.mar → t.mem.read a = s.mem.read a)

/-- Rule R76's state after the conflict: what subcycles 2 and 3 wrote stands (the spec's decision D24,
log entry 18), the commit phase did not happen, and the machine has stopped (D13, log entry 9). -/
def Obligations.ConflictEndsTheCycle : Prop :=
  ∀ (s : State) (w : UWord), Fetches s w → isConflict (unpack w) →
    let f := unpack w
    ∃ t, step s = .next t ∧ t.fault = some .conflictingMemoryOp ∧
      t.hs = ⟨s.hs.thisReq, false, s.hs.thisOp, .none⟩ ∧
      t.mbr = s.mbr ∧ t.bank = s.bank ∧ t.mem = s.mem ∧ t.mpc = s.mpc ∧
      t.mir = w ∧ t.mar = addressAtCommit f s ∧
      t.z = referenceZ (referenceResult f s) ∧ t.n = referenceN (referenceResult f s) ∧
      t.shout = referenceShout f s ∧
      t.events = s.events ++ (if f.sh = 3 then [⟨.undefinedShiftOp, .error⟩] else []) ∧
      step t = .fault (.stopped .conflictingMemoryOp)

/-- The events of one cycle: at most one `UndefinedShiftOp`, then at most one `ImmutableWrite`, which
no conflict lets happen; then at most the fatal error (rules R92, R93, derived there). -/
def Obligations.ErrorsOfOneCycleInOrder : Prop :=
  ∀ (s : State) (w : UWord), Fetches s w →
    let f := unpack w
    ∃ t, step s = .next t ∧
      t.events = s.events ++
        (if f.sh = 3 then [⟨.undefinedShiftOp, .error⟩] else []) ++
        (if ¬(f.rd = 1 ∧ f.wr = 1) ∧ f.enc = 1 ∧ isMutable (Reg.ofIndex f.c) = false
          then [⟨.immutableWrite, .error⟩] else []) ∧
      (f.rd = 1 ∧ f.wr = 1 → t.fault = some .conflictingMemoryOp) ∧
      (¬(f.rd = 1 ∧ f.wr = 1) → t.fault = none) ∧
      reported s t = t.events.drop s.events.length ++ fatalEvent t.fault

/-- The frame of a whole cycle: no register but the mutable one on bus C with ENC, no memory word but
the one at MAR in a committing Write, and never program memory. -/
def Obligations.CycleChangesOnlyItsDestinations : Prop :=
  ∀ (s t : State) (w : UWord), Fetches s w → step s = .next t →
    let f := unpack w
    (∀ r, ¬(f.enc = 1 ∧ ¬isConflict f ∧ r = Reg.ofIndex f.c ∧ isMutable r = true) →
      t.bank.read r = s.bank.read r) ∧
    (∀ a, ¬(¬isConflict f ∧ requestOf f = .write ∧ commitsNow s .write = true ∧
      a = addressAtCommit f s) → t.mem.read a = s.mem.read a) ∧
    t.prog = s.prog ∧ t.mir = w

/-- What a cycle reads of the state before it: MIR, Z, N and the ALU's latches of earlier cycles are
never read once there is a word to fetch (R19, R23, R24). -/
def Obligations.StaleMirFlagsAndLatchesAreNeverRead : Prop :=
  ∀ (s : State) (w mir : UWord) (z n : Bool) (lat : Latches), Fetches s w →
    step { s with mir := mir, z := z, n := n, lat := lat } = step s

/-- No step writes program memory, and MPC moves only by one, or to one of the first 256 words, or not
at all (derived in R18, R26, R89). -/
def Obligations.MpcMovesByOneOrToALowIndex : Prop :=
  ∀ s t : State, step s = .next t →
    t.prog = s.prog ∧ (t.mpc = s.mpc ∨ t.mpc = s.mpc + 1 ∨ t.mpc < 256)

/-- The hold (R88, D28, log entry 19): a word that writes nothing and whose flags select no jump
leaves MPC, and the next cycle runs the same word, with the same flags, forever. -/
def Obligations.HoldRepeatsTheSameWord : Prop :=
  ∀ (s : State) (w : UWord), Fetches s w →
    let f := unpack w
    f.mbr = 0 → f.mar = 0 → f.enc = 0 → f.rd = 0 → f.wr = 0 → f.sh ≠ 3 →
    (referenceZ (referenceResult f s) = true ∧ f.cond.getLsbD 1 = false ∨
      referenceN (referenceResult f s) = true ∧ f.cond.getLsbD 0 = false) →
    ∃ t, step s = .next t ∧ t.mpc = s.mpc ∧ t.bank = s.bank ∧ t.mem = s.mem ∧ t.events = s.events ∧
      ∃ u, step t = .next u ∧ u = { t with hs := u.hs } ∧ step u = .next u

/-- A Stop word (R108): from a halted state, MPC, the registers, memory, MAR, MBR and the events stay;
after one more cycle nothing at all changes, and the port is idle. -/
def Obligations.StopWordHaltsForever : Prop :=
  ∀ (h : Nat) (s : State), Halted h s →
    ∃ t u, step s = .next t ∧ step t = .next u ∧ step u = .next u ∧ Halted h t ∧ Halted h u ∧
      t.bank = s.bank ∧ t.mem = s.mem ∧ t.mar = s.mar ∧ t.mbr = s.mbr ∧ t.events = s.events ∧
      u = { t with hs := ⟨false, false, .none, .none⟩ }

/-! ## The memory port over several cycles -/

/-- R82: in a sequence of requests from an idle port, a cycle commits exactly when it requests, the
cycle before requested the same, and the cycle before did not commit. -/
def Obligations.AccessCommitsIffRequestWasSustained : Prop :=
  ∀ (ops : List MemOp) (k : Nat),
    (commitTrace Handshake.idle ops)[k]? = some true ↔
      ∃ j, k = j + 1 ∧ ops[k]? = ops[j]? ∧ (∃ op, ops[k]? = some op ∧ op ≠ .none) ∧
        (commitTrace Handshake.idle ops)[j]? = some false

/-- R82's count: a request held for `k` cycles, after another request or none, commits `k / 2` times;
and each machine cycle moves the port as the sequence does. -/
def Obligations.HeldRequestCommitsEverySecondCycle : Prop :=
  (∀ (h : Handshake) (op : MemOp) (k : Nat), op ≠ .none → ¬(h.thisReq = true ∧ h.thisOp = op) →
    (commitTrace h (List.replicate k op)).count true = k / 2) ∧
  (∀ (s : State) (w : UWord), Fetches s w → ¬isConflict (unpack w) →
    ∃ t, step s = .next t ∧ t.hs = portAfter s.hs (requestOf (unpack w)))

/-- Two cycles of a sustained Read deliver the word at the second cycle's MAR, whatever MAR was in the
first (R109, R110). -/
def Obligations.SustainedReadDeliversTheWord : Prop :=
  ∀ (s t : State) (v w : UWord), Fetches s v → step s = .next t → Fetches t w →
    requestOf (unpack v) = .read → requestOf (unpack w) = .read →
    ¬isConflict (unpack v) → ¬isConflict (unpack w) → (unpack w).mbr = 0 →
    ¬(s.hs.thisReq = true ∧ s.hs.thisOp = .read) →
    ∃ u, step t = .next u ∧ u.mbr = s.mem.read (addressAtCommit (unpack w) t) ∧ u.mem = s.mem ∧
      u.hs = Handshake.idle

/-- Two cycles of a sustained Write store the MBR the first cycle left, at the second cycle's MAR, and
touch no other word (R110, R111). -/
def Obligations.SustainedWriteStoresTheWord : Prop :=
  ∀ (s t : State) (v w : UWord), Fetches s v → step s = .next t → Fetches t w →
    requestOf (unpack v) = .write → requestOf (unpack w) = .write →
    ¬isConflict (unpack v) → ¬isConflict (unpack w) →
    ¬(s.hs.thisReq = true ∧ s.hs.thisOp = .write) →
    ∃ u, step t = .next u ∧ u.hs = Handshake.idle ∧
      u.mem.read (addressAtCommit (unpack w) t) = t.mbr ∧
      ∀ a, a ≠ addressAtCommit (unpack w) t → u.mem.read a = s.mem.read a

/-! ## Registers, memory and the host -/

/-- R17: the write rule. A constant rejects every value; a mutable register rejects a value that does
not fit (conflict C1) and takes one that does, and no other register changes. -/
def Obligations.RegisterWriteRule : Prop :=
  ∀ (b : Bank) (r : Reg) (v : Nat),
    (isMutable r = false → b.write r v = .error .immutableWrite) ∧
    (isMutable r = true → 2 ^ 16 ≤ v → b.write r v = .error .overflow) ∧
    (isMutable r = true → v < 2 ^ 16 → ∃ b', b.write r v = .ok b' ∧ (b'.read r).toNat = v ∧
      ∀ q, q ≠ r → b'.read q = b.read q)

/-- R12, R14: the sixteen indices name the sixteen registers, and 5 to 9 are the constants, read in any
bank. -/
def Obligations.IndicesNameTheBankAndItsConstants : Prop :=
  (∀ k : BitVec 4, (Reg.ofIndex k).index = k) ∧ (∀ r : Reg, Reg.ofIndex r.index = r) ∧
  (∀ k : BitVec 4, isMutable (Reg.ofIndex k) = false ↔ 5 ≤ k.toNat ∧ k.toNat ≤ 9) ∧
  (∀ b : Bank, b.read (Reg.ofIndex 5) = 0x0000 ∧ b.read (Reg.ofIndex 6) = 0x0001 ∧
    (b.read (Reg.ofIndex 7)).toNat = 2 ^ 16 - 1 ∧ b.read (Reg.ofIndex 8) = 0x0FFF ∧
    b.read (Reg.ofIndex 9) = 0x00FF)

/-- R12: the name table is the sixteen names in index order, and `registerByName` finds each of them and
no other. -/
def Obligations.NameTableNamesTheSixteenRegisters : Prop :=
  nameTable.map (fun p => p.1) =
    ["PC", "AC", "SP", "IR", "TIR", "0", "+1", "-1", "AMASK", "SMASK", "A", "B", "C", "D", "E", "F"] ∧
  nameTable.map (fun p => p.2.index.toNat) = List.range 16 ∧
  (∀ (name : String) (r : Reg), registerByName name = .ok r ↔ (name, r) ∈ nameTable)

/-- A read after a write gives the word written, and a write leaves every other word: at every address,
in every memory (R35, R36). -/
def Obligations.MemoryReadsWhatWasWritten : Prop :=
  ∀ (m : Memory) (a v : Word),
    (m.write a v).read a = v ∧ ∀ b, b ≠ a → (m.write a v).read b = m.read b

/-- Equal memories are equal data: two memories in canonical form that list the same words at every
address are the same list. -/
def Obligations.CanonicalMemoriesAreEqualData : Prop :=
  ∀ m m' : Memory, m.wf = true → m'.wf = true → (∀ a, m.lookup a = m'.lookup a) → m = m'

/-- R103: seeding by name follows the register write rule; an unknown name, a constant or a value that
does not fit has no effect. MAR has no name (D18, log entry 20). -/
def Obligations.SeedingFollowsTheRegisterWriteRule : Prop :=
  ∀ (su : Setup) (name : String) (v : Nat),
    (∀ e, registerByName name = .error e → e = .unknownRegisterName ∧
      su.seed name v = .error .unknownRegisterName) ∧
    (∀ r, registerByName name = .ok r →
      (isMutable r = false → su.seed name v = .error .immutableWrite) ∧
      (isMutable r = true → 2 ^ 16 ≤ v → su.seed name v = .error .overflow) ∧
      (isMutable r = true → v < 2 ^ 16 → ∃ su', su.seed name v = .ok su' ∧
        ((State.initial su').bank.read r).toNat = v ∧ su' = { su with bank := su'.bank } ∧
        ∀ q, q ≠ r → su'.bank.read q = su.bank.read q))

/-- R104: seeding memory rejects a value or an address past the word or the space, with no effect
(D25, log entry 20), and else sets that word alone. -/
def Obligations.MemoryPreloadIsRangeChecked : Prop :=
  ∀ (su : Setup) (a v : Nat),
    (2 ^ 16 ≤ a ∨ 2 ^ 16 ≤ v → su.memseed a v = .error .overflow) ∧
    (a < 2 ^ 16 → v < 2 ^ 16 → ∃ su', su.memseed a v = .ok su' ∧
      su' = { su with mem := su'.mem } ∧ (su'.mem.read (BitVec.ofNat 16 a)).toNat = v ∧
      ∀ b : Word, b.toNat ≠ a → su'.mem.read b = su.mem.read b)

/-- The state before the first cycle (R29, R101), for every setup the host makes: MPC 0, the port idle,
no fault, no event, Z and N 0 (the spec's decisions D5, D8, D12, D13, D14), and the rest as given. The
reset state is the one with nothing seeded and nothing loaded (log entries 4, 5, 14). That a failed
seed leaves no event is the model's choice (log entry 26). -/
def Obligations.InitialStateAsTheHostLeftIt : Prop :=
  (∀ su : Setup, (State.initial su).mpc = 0 ∧ (State.initial su).hs = ⟨false, false, .none, .none⟩ ∧
    (State.initial su).z = false ∧ (State.initial su).n = false ∧
    (State.initial su).fault = none ∧ (State.initial su).events = [] ∧
    (State.initial su).bank = su.bank ∧ (State.initial su).mar = su.mar ∧
    (State.initial su).mbr = su.mbr ∧ (State.initial su).shout = su.shout ∧
    (State.initial su).prog = su.prog ∧ (State.initial su).mem = su.mem) ∧
  State.reset = State.initial Setup.unseeded ∧ State.reset.prog = [] ∧ State.reset.mem = []

/-- R102: the loaded words are program memory, and an empty program faults in its first cycle. -/
def Obligations.LoadedProgramIsProgramMemory : Prop :=
  ∀ (su : Setup) (words : List UWord),
    (State.initial (su.load words)).prog = words ∧
    (words = [] → ∃ t, step (State.initial (su.load words)) = .next t ∧
      t.fault = some .programCounterOutOfRange) ∧
    (∀ w rest, words = w :: rest → Fetches (State.initial (su.load words)) w)

/-- Placing a word where the next step fetches it: that step runs exactly the word (log entry 14). -/
def Obligations.PlacedWordIsTheNextFetched : Prop :=
  ∀ (s : State) (w : UWord), Fetches (s.withFetchWord 32 w.toNat) w ∧
    (s.withFetchWord 32 w.toNat) =
      { s with prog := (s.withFetchWord 32 w.toNat).prog, fault := none } ∧
    ∀ k, k < s.prog.length → k ≠ s.mpc → (s.withFetchWord 32 w.toNat).prog[k]? = s.prog[k]?

/-- The eight error kinds: codes 1 to 8, one each (the spec's own, D15), and fatal exactly the two of
R91. -/
def Obligations.ErrorKindsHaveCodesAndSeverities : Prop :=
  (∀ j k : ErrorKind, j.code = k.code → j = k) ∧ (∀ k : ErrorKind, 1 ≤ k.code ∧ k.code ≤ 8) ∧
  (∀ k : ErrorKind, k.severity = .fatal ↔ ∃ q : FatalKind, q.toErrorKind = k)

/-! ## The invariant -/

/-- Before the first cycle the invariant holds, for every setup whose memory is in canonical form; the
reset state is one. No failed seed has left an event: the model's choice (log entry 26). -/
def Obligations.InvariantHoldsInitially : Prop :=
  (∀ su : Setup, su.mem.wf = true → Inv (State.initial su)) ∧ Inv State.reset

/-- Every step keeps the invariant: canonical memory, flags not both 1, a coherent port with nothing
left to commit, clear latches, and only the two reachable kinds of events. -/
def Obligations.EveryStepKeepsTheInvariant : Prop :=
  ∀ s t : State, Inv s → step s = .next t → Inv t

/-- So it holds in every state of every run, and no run changes program memory, a constant, or loses
an event. -/
def Obligations.EveryRunKeepsTheInvariant : Prop :=
  ∀ s t : State, Inv s → Reaches s t →
    Inv t ∧ t.prog = s.prog ∧ (∃ new, t.events = s.events ++ new) ∧
      ∀ r, isMutable r = false → t.bank.read r = s.bank.read r
end

