-- ==== Sys2Proof/Laws/State.lean ====
section
/-! SUPPORT. One lemma per field per update of State, so that no proof unfolds a record update. -/

namespace Sys2Proof.Laws.State

open Sys2Proof.Machine

variable (s : State)

/-! ### setBank -/

@[simp] theorem setBank_bank (b : Bank) : (s.setBank b).bank = b := rfl
@[simp] theorem setBank_mpc (b : Bank) : (s.setBank b).mpc = s.mpc := rfl
@[simp] theorem setBank_mir (b : Bank) : (s.setBank b).mir = s.mir := rfl
@[simp] theorem setBank_mar (b : Bank) : (s.setBank b).mar = s.mar := rfl
@[simp] theorem setBank_mbr (b : Bank) : (s.setBank b).mbr = s.mbr := rfl
@[simp] theorem setBank_hs (b : Bank) : (s.setBank b).hs = s.hs := rfl
@[simp] theorem setBank_z (b : Bank) : (s.setBank b).z = s.z := rfl
@[simp] theorem setBank_n (b : Bank) : (s.setBank b).n = s.n := rfl
@[simp] theorem setBank_shout (b : Bank) : (s.setBank b).shout = s.shout := rfl
@[simp] theorem setBank_prog (b : Bank) : (s.setBank b).prog = s.prog := rfl
@[simp] theorem setBank_mem (b : Bank) : (s.setBank b).mem = s.mem := rfl
@[simp] theorem setBank_fault (b : Bank) : (s.setBank b).fault = s.fault := rfl
@[simp] theorem setBank_events (b : Bank) : (s.setBank b).events = s.events := rfl
@[simp] theorem setBank_lat (b : Bank) : (s.setBank b).lat = s.lat := rfl

/-! ### setMpc -/

@[simp] theorem setMpc_bank (v : Nat) : (s.setMpc v).bank = s.bank := rfl
@[simp] theorem setMpc_mpc (v : Nat) : (s.setMpc v).mpc = v := rfl
@[simp] theorem setMpc_mir (v : Nat) : (s.setMpc v).mir = s.mir := rfl
@[simp] theorem setMpc_mar (v : Nat) : (s.setMpc v).mar = s.mar := rfl
@[simp] theorem setMpc_mbr (v : Nat) : (s.setMpc v).mbr = s.mbr := rfl
@[simp] theorem setMpc_hs (v : Nat) : (s.setMpc v).hs = s.hs := rfl
@[simp] theorem setMpc_z (v : Nat) : (s.setMpc v).z = s.z := rfl
@[simp] theorem setMpc_n (v : Nat) : (s.setMpc v).n = s.n := rfl
@[simp] theorem setMpc_shout (v : Nat) : (s.setMpc v).shout = s.shout := rfl
@[simp] theorem setMpc_prog (v : Nat) : (s.setMpc v).prog = s.prog := rfl
@[simp] theorem setMpc_mem (v : Nat) : (s.setMpc v).mem = s.mem := rfl
@[simp] theorem setMpc_fault (v : Nat) : (s.setMpc v).fault = s.fault := rfl
@[simp] theorem setMpc_events (v : Nat) : (s.setMpc v).events = s.events := rfl
@[simp] theorem setMpc_lat (v : Nat) : (s.setMpc v).lat = s.lat := rfl

/-! ### setMir -/

@[simp] theorem setMir_bank (w : UWord) : (s.setMir w).bank = s.bank := rfl
@[simp] theorem setMir_mpc (w : UWord) : (s.setMir w).mpc = s.mpc := rfl
@[simp] theorem setMir_mir (w : UWord) : (s.setMir w).mir = w := rfl
@[simp] theorem setMir_mar (w : UWord) : (s.setMir w).mar = s.mar := rfl
@[simp] theorem setMir_mbr (w : UWord) : (s.setMir w).mbr = s.mbr := rfl
@[simp] theorem setMir_hs (w : UWord) : (s.setMir w).hs = s.hs := rfl
@[simp] theorem setMir_z (w : UWord) : (s.setMir w).z = s.z := rfl
@[simp] theorem setMir_n (w : UWord) : (s.setMir w).n = s.n := rfl
@[simp] theorem setMir_shout (w : UWord) : (s.setMir w).shout = s.shout := rfl
@[simp] theorem setMir_prog (w : UWord) : (s.setMir w).prog = s.prog := rfl
@[simp] theorem setMir_mem (w : UWord) : (s.setMir w).mem = s.mem := rfl
@[simp] theorem setMir_fault (w : UWord) : (s.setMir w).fault = s.fault := rfl
@[simp] theorem setMir_events (w : UWord) : (s.setMir w).events = s.events := rfl
@[simp] theorem setMir_lat (w : UWord) : (s.setMir w).lat = s.lat := rfl

/-! ### setMar -/

@[simp] theorem setMar_bank (v : Word) : (s.setMar v).bank = s.bank := rfl
@[simp] theorem setMar_mpc (v : Word) : (s.setMar v).mpc = s.mpc := rfl
@[simp] theorem setMar_mir (v : Word) : (s.setMar v).mir = s.mir := rfl
@[simp] theorem setMar_mar (v : Word) : (s.setMar v).mar = v := rfl
@[simp] theorem setMar_mbr (v : Word) : (s.setMar v).mbr = s.mbr := rfl
@[simp] theorem setMar_hs (v : Word) : (s.setMar v).hs = s.hs := rfl
@[simp] theorem setMar_z (v : Word) : (s.setMar v).z = s.z := rfl
@[simp] theorem setMar_n (v : Word) : (s.setMar v).n = s.n := rfl
@[simp] theorem setMar_shout (v : Word) : (s.setMar v).shout = s.shout := rfl
@[simp] theorem setMar_prog (v : Word) : (s.setMar v).prog = s.prog := rfl
@[simp] theorem setMar_mem (v : Word) : (s.setMar v).mem = s.mem := rfl
@[simp] theorem setMar_fault (v : Word) : (s.setMar v).fault = s.fault := rfl
@[simp] theorem setMar_events (v : Word) : (s.setMar v).events = s.events := rfl
@[simp] theorem setMar_lat (v : Word) : (s.setMar v).lat = s.lat := rfl

/-! ### setMbr -/

@[simp] theorem setMbr_bank (v : Word) : (s.setMbr v).bank = s.bank := rfl
@[simp] theorem setMbr_mpc (v : Word) : (s.setMbr v).mpc = s.mpc := rfl
@[simp] theorem setMbr_mir (v : Word) : (s.setMbr v).mir = s.mir := rfl
@[simp] theorem setMbr_mar (v : Word) : (s.setMbr v).mar = s.mar := rfl
@[simp] theorem setMbr_mbr (v : Word) : (s.setMbr v).mbr = v := rfl
@[simp] theorem setMbr_hs (v : Word) : (s.setMbr v).hs = s.hs := rfl
@[simp] theorem setMbr_z (v : Word) : (s.setMbr v).z = s.z := rfl
@[simp] theorem setMbr_n (v : Word) : (s.setMbr v).n = s.n := rfl
@[simp] theorem setMbr_shout (v : Word) : (s.setMbr v).shout = s.shout := rfl
@[simp] theorem setMbr_prog (v : Word) : (s.setMbr v).prog = s.prog := rfl
@[simp] theorem setMbr_mem (v : Word) : (s.setMbr v).mem = s.mem := rfl
@[simp] theorem setMbr_fault (v : Word) : (s.setMbr v).fault = s.fault := rfl
@[simp] theorem setMbr_events (v : Word) : (s.setMbr v).events = s.events := rfl
@[simp] theorem setMbr_lat (v : Word) : (s.setMbr v).lat = s.lat := rfl

/-! ### setHs -/

@[simp] theorem setHs_bank (h : Handshake) : (s.setHs h).bank = s.bank := rfl
@[simp] theorem setHs_mpc (h : Handshake) : (s.setHs h).mpc = s.mpc := rfl
@[simp] theorem setHs_mir (h : Handshake) : (s.setHs h).mir = s.mir := rfl
@[simp] theorem setHs_mar (h : Handshake) : (s.setHs h).mar = s.mar := rfl
@[simp] theorem setHs_mbr (h : Handshake) : (s.setHs h).mbr = s.mbr := rfl
@[simp] theorem setHs_hs (h : Handshake) : (s.setHs h).hs = h := rfl
@[simp] theorem setHs_z (h : Handshake) : (s.setHs h).z = s.z := rfl
@[simp] theorem setHs_n (h : Handshake) : (s.setHs h).n = s.n := rfl
@[simp] theorem setHs_shout (h : Handshake) : (s.setHs h).shout = s.shout := rfl
@[simp] theorem setHs_prog (h : Handshake) : (s.setHs h).prog = s.prog := rfl
@[simp] theorem setHs_mem (h : Handshake) : (s.setHs h).mem = s.mem := rfl
@[simp] theorem setHs_fault (h : Handshake) : (s.setHs h).fault = s.fault := rfl
@[simp] theorem setHs_events (h : Handshake) : (s.setHs h).events = s.events := rfl
@[simp] theorem setHs_lat (h : Handshake) : (s.setHs h).lat = s.lat := rfl

/-! ### setShout -/

@[simp] theorem setShout_bank (v : Word) : (s.setShout v).bank = s.bank := rfl
@[simp] theorem setShout_mpc (v : Word) : (s.setShout v).mpc = s.mpc := rfl
@[simp] theorem setShout_mir (v : Word) : (s.setShout v).mir = s.mir := rfl
@[simp] theorem setShout_mar (v : Word) : (s.setShout v).mar = s.mar := rfl
@[simp] theorem setShout_mbr (v : Word) : (s.setShout v).mbr = s.mbr := rfl
@[simp] theorem setShout_hs (v : Word) : (s.setShout v).hs = s.hs := rfl
@[simp] theorem setShout_z (v : Word) : (s.setShout v).z = s.z := rfl
@[simp] theorem setShout_n (v : Word) : (s.setShout v).n = s.n := rfl
@[simp] theorem setShout_shout (v : Word) : (s.setShout v).shout = v := rfl
@[simp] theorem setShout_prog (v : Word) : (s.setShout v).prog = s.prog := rfl
@[simp] theorem setShout_mem (v : Word) : (s.setShout v).mem = s.mem := rfl
@[simp] theorem setShout_fault (v : Word) : (s.setShout v).fault = s.fault := rfl
@[simp] theorem setShout_events (v : Word) : (s.setShout v).events = s.events := rfl
@[simp] theorem setShout_lat (v : Word) : (s.setShout v).lat = s.lat := rfl

/-! ### setMem -/

@[simp] theorem setMem_bank (m : Memory) : (s.setMem m).bank = s.bank := rfl
@[simp] theorem setMem_mpc (m : Memory) : (s.setMem m).mpc = s.mpc := rfl
@[simp] theorem setMem_mir (m : Memory) : (s.setMem m).mir = s.mir := rfl
@[simp] theorem setMem_mar (m : Memory) : (s.setMem m).mar = s.mar := rfl
@[simp] theorem setMem_mbr (m : Memory) : (s.setMem m).mbr = s.mbr := rfl
@[simp] theorem setMem_hs (m : Memory) : (s.setMem m).hs = s.hs := rfl
@[simp] theorem setMem_z (m : Memory) : (s.setMem m).z = s.z := rfl
@[simp] theorem setMem_n (m : Memory) : (s.setMem m).n = s.n := rfl
@[simp] theorem setMem_shout (m : Memory) : (s.setMem m).shout = s.shout := rfl
@[simp] theorem setMem_prog (m : Memory) : (s.setMem m).prog = s.prog := rfl
@[simp] theorem setMem_mem (m : Memory) : (s.setMem m).mem = m := rfl
@[simp] theorem setMem_fault (m : Memory) : (s.setMem m).fault = s.fault := rfl
@[simp] theorem setMem_events (m : Memory) : (s.setMem m).events = s.events := rfl
@[simp] theorem setMem_lat (m : Memory) : (s.setMem m).lat = s.lat := rfl

/-! ### setFlags -/

@[simp] theorem setFlags_bank (z n : Bool) : (s.setFlags z n).bank = s.bank := rfl
@[simp] theorem setFlags_mpc (z n : Bool) : (s.setFlags z n).mpc = s.mpc := rfl
@[simp] theorem setFlags_mir (z n : Bool) : (s.setFlags z n).mir = s.mir := rfl
@[simp] theorem setFlags_mar (z n : Bool) : (s.setFlags z n).mar = s.mar := rfl
@[simp] theorem setFlags_mbr (z n : Bool) : (s.setFlags z n).mbr = s.mbr := rfl
@[simp] theorem setFlags_hs (z n : Bool) : (s.setFlags z n).hs = s.hs := rfl
@[simp] theorem setFlags_z (z n : Bool) : (s.setFlags z n).z = z := rfl
@[simp] theorem setFlags_n (z n : Bool) : (s.setFlags z n).n = n := rfl
@[simp] theorem setFlags_shout (z n : Bool) : (s.setFlags z n).shout = s.shout := rfl
@[simp] theorem setFlags_prog (z n : Bool) : (s.setFlags z n).prog = s.prog := rfl
@[simp] theorem setFlags_mem (z n : Bool) : (s.setFlags z n).mem = s.mem := rfl
@[simp] theorem setFlags_fault (z n : Bool) : (s.setFlags z n).fault = s.fault := rfl
@[simp] theorem setFlags_events (z n : Bool) : (s.setFlags z n).events = s.events := rfl
@[simp] theorem setFlags_lat (z n : Bool) : (s.setFlags z n).lat = s.lat := rfl

/-! ### setAluA -/

@[simp] theorem setAluA_bank (v : Word) : (s.setAluA v).bank = s.bank := rfl
@[simp] theorem setAluA_mpc (v : Word) : (s.setAluA v).mpc = s.mpc := rfl
@[simp] theorem setAluA_mir (v : Word) : (s.setAluA v).mir = s.mir := rfl
@[simp] theorem setAluA_mar (v : Word) : (s.setAluA v).mar = s.mar := rfl
@[simp] theorem setAluA_mbr (v : Word) : (s.setAluA v).mbr = s.mbr := rfl
@[simp] theorem setAluA_hs (v : Word) : (s.setAluA v).hs = s.hs := rfl
@[simp] theorem setAluA_z (v : Word) : (s.setAluA v).z = s.z := rfl
@[simp] theorem setAluA_n (v : Word) : (s.setAluA v).n = s.n := rfl
@[simp] theorem setAluA_shout (v : Word) : (s.setAluA v).shout = s.shout := rfl
@[simp] theorem setAluA_prog (v : Word) : (s.setAluA v).prog = s.prog := rfl
@[simp] theorem setAluA_mem (v : Word) : (s.setAluA v).mem = s.mem := rfl
@[simp] theorem setAluA_fault (v : Word) : (s.setAluA v).fault = s.fault := rfl
@[simp] theorem setAluA_events (v : Word) : (s.setAluA v).events = s.events := rfl
@[simp] theorem setAluA_lat (v : Word) : (s.setAluA v).lat = { s.lat with aluA := v } := rfl

/-! ### setAluB -/

@[simp] theorem setAluB_bank (v : Word) : (s.setAluB v).bank = s.bank := rfl
@[simp] theorem setAluB_mpc (v : Word) : (s.setAluB v).mpc = s.mpc := rfl
@[simp] theorem setAluB_mir (v : Word) : (s.setAluB v).mir = s.mir := rfl
@[simp] theorem setAluB_mar (v : Word) : (s.setAluB v).mar = s.mar := rfl
@[simp] theorem setAluB_mbr (v : Word) : (s.setAluB v).mbr = s.mbr := rfl
@[simp] theorem setAluB_hs (v : Word) : (s.setAluB v).hs = s.hs := rfl
@[simp] theorem setAluB_z (v : Word) : (s.setAluB v).z = s.z := rfl
@[simp] theorem setAluB_n (v : Word) : (s.setAluB v).n = s.n := rfl
@[simp] theorem setAluB_shout (v : Word) : (s.setAluB v).shout = s.shout := rfl
@[simp] theorem setAluB_prog (v : Word) : (s.setAluB v).prog = s.prog := rfl
@[simp] theorem setAluB_mem (v : Word) : (s.setAluB v).mem = s.mem := rfl
@[simp] theorem setAluB_fault (v : Word) : (s.setAluB v).fault = s.fault := rfl
@[simp] theorem setAluB_events (v : Word) : (s.setAluB v).events = s.events := rfl
@[simp] theorem setAluB_lat (v : Word) : (s.setAluB v).lat = { s.lat with aluB := v } := rfl

/-! ### setAluOut -/

@[simp] theorem setAluOut_bank (v : Word) : (s.setAluOut v).bank = s.bank := rfl
@[simp] theorem setAluOut_mpc (v : Word) : (s.setAluOut v).mpc = s.mpc := rfl
@[simp] theorem setAluOut_mir (v : Word) : (s.setAluOut v).mir = s.mir := rfl
@[simp] theorem setAluOut_mar (v : Word) : (s.setAluOut v).mar = s.mar := rfl
@[simp] theorem setAluOut_mbr (v : Word) : (s.setAluOut v).mbr = s.mbr := rfl
@[simp] theorem setAluOut_hs (v : Word) : (s.setAluOut v).hs = s.hs := rfl
@[simp] theorem setAluOut_z (v : Word) : (s.setAluOut v).z = s.z := rfl
@[simp] theorem setAluOut_n (v : Word) : (s.setAluOut v).n = s.n := rfl
@[simp] theorem setAluOut_shout (v : Word) : (s.setAluOut v).shout = s.shout := rfl
@[simp] theorem setAluOut_prog (v : Word) : (s.setAluOut v).prog = s.prog := rfl
@[simp] theorem setAluOut_mem (v : Word) : (s.setAluOut v).mem = s.mem := rfl
@[simp] theorem setAluOut_fault (v : Word) : (s.setAluOut v).fault = s.fault := rfl
@[simp] theorem setAluOut_events (v : Word) : (s.setAluOut v).events = s.events := rfl
@[simp] theorem setAluOut_lat (v : Word) : (s.setAluOut v).lat = { s.lat with aluOut := v } := rfl

/-! ### clearLatches -/

@[simp] theorem clearLatches_bank : (s.clearLatches).bank = s.bank := rfl
@[simp] theorem clearLatches_mpc : (s.clearLatches).mpc = s.mpc := rfl
@[simp] theorem clearLatches_mir : (s.clearLatches).mir = s.mir := rfl
@[simp] theorem clearLatches_mar : (s.clearLatches).mar = s.mar := rfl
@[simp] theorem clearLatches_mbr : (s.clearLatches).mbr = s.mbr := rfl
@[simp] theorem clearLatches_hs : (s.clearLatches).hs = s.hs := rfl
@[simp] theorem clearLatches_z : (s.clearLatches).z = s.z := rfl
@[simp] theorem clearLatches_n : (s.clearLatches).n = s.n := rfl
@[simp] theorem clearLatches_shout : (s.clearLatches).shout = s.shout := rfl
@[simp] theorem clearLatches_prog : (s.clearLatches).prog = s.prog := rfl
@[simp] theorem clearLatches_mem : (s.clearLatches).mem = s.mem := rfl
@[simp] theorem clearLatches_fault : (s.clearLatches).fault = s.fault := rfl
@[simp] theorem clearLatches_events : (s.clearLatches).events = s.events := rfl
@[simp] theorem clearLatches_lat : (s.clearLatches).lat = Latches.clear := rfl

/-! ### emit -/

@[simp] theorem emit_bank (k : ErrorKind) : (s.emit k).bank = s.bank := rfl
@[simp] theorem emit_mpc (k : ErrorKind) : (s.emit k).mpc = s.mpc := rfl
@[simp] theorem emit_mir (k : ErrorKind) : (s.emit k).mir = s.mir := rfl
@[simp] theorem emit_mar (k : ErrorKind) : (s.emit k).mar = s.mar := rfl
@[simp] theorem emit_mbr (k : ErrorKind) : (s.emit k).mbr = s.mbr := rfl
@[simp] theorem emit_hs (k : ErrorKind) : (s.emit k).hs = s.hs := rfl
@[simp] theorem emit_z (k : ErrorKind) : (s.emit k).z = s.z := rfl
@[simp] theorem emit_n (k : ErrorKind) : (s.emit k).n = s.n := rfl
@[simp] theorem emit_shout (k : ErrorKind) : (s.emit k).shout = s.shout := rfl
@[simp] theorem emit_prog (k : ErrorKind) : (s.emit k).prog = s.prog := rfl
@[simp] theorem emit_mem (k : ErrorKind) : (s.emit k).mem = s.mem := rfl
@[simp] theorem emit_fault (k : ErrorKind) : (s.emit k).fault = s.fault := rfl
@[simp] theorem emit_events (k : ErrorKind) : (s.emit k).events = s.events ++ [k.event] := rfl
@[simp] theorem emit_lat (k : ErrorKind) : (s.emit k).lat = s.lat := rfl

/-! ### raiseFatal -/

@[simp] theorem raiseFatal_bank (k : FatalKind) : (s.raiseFatal k).bank = s.bank := rfl
@[simp] theorem raiseFatal_mpc (k : FatalKind) : (s.raiseFatal k).mpc = s.mpc := rfl
@[simp] theorem raiseFatal_mir (k : FatalKind) : (s.raiseFatal k).mir = s.mir := rfl
@[simp] theorem raiseFatal_mar (k : FatalKind) : (s.raiseFatal k).mar = s.mar := rfl
@[simp] theorem raiseFatal_mbr (k : FatalKind) : (s.raiseFatal k).mbr = s.mbr := rfl
@[simp] theorem raiseFatal_hs (k : FatalKind) : (s.raiseFatal k).hs = s.hs := rfl
@[simp] theorem raiseFatal_z (k : FatalKind) : (s.raiseFatal k).z = s.z := rfl
@[simp] theorem raiseFatal_n (k : FatalKind) : (s.raiseFatal k).n = s.n := rfl
@[simp] theorem raiseFatal_shout (k : FatalKind) : (s.raiseFatal k).shout = s.shout := rfl
@[simp] theorem raiseFatal_prog (k : FatalKind) : (s.raiseFatal k).prog = s.prog := rfl
@[simp] theorem raiseFatal_mem (k : FatalKind) : (s.raiseFatal k).mem = s.mem := rfl
@[simp] theorem raiseFatal_fault (k : FatalKind) : (s.raiseFatal k).fault = some k := rfl
@[simp] theorem raiseFatal_events (k : FatalKind) : (s.raiseFatal k).events = s.events := rfl
@[simp] theorem raiseFatal_lat (k : FatalKind) : (s.raiseFatal k).lat = s.lat := rfl

/-! ### writeReg -/

@[simp] theorem writeReg_bank (r : Reg) (v : Nat) : (s.writeReg r v).bank = s.bank.after r v := rfl
@[simp] theorem writeReg_mpc (r : Reg) (v : Nat) : (s.writeReg r v).mpc = s.mpc := rfl
@[simp] theorem writeReg_mir (r : Reg) (v : Nat) : (s.writeReg r v).mir = s.mir := rfl
@[simp] theorem writeReg_mar (r : Reg) (v : Nat) : (s.writeReg r v).mar = s.mar := rfl
@[simp] theorem writeReg_mbr (r : Reg) (v : Nat) : (s.writeReg r v).mbr = s.mbr := rfl
@[simp] theorem writeReg_hs (r : Reg) (v : Nat) : (s.writeReg r v).hs = s.hs := rfl
@[simp] theorem writeReg_z (r : Reg) (v : Nat) : (s.writeReg r v).z = s.z := rfl
@[simp] theorem writeReg_n (r : Reg) (v : Nat) : (s.writeReg r v).n = s.n := rfl
@[simp] theorem writeReg_shout (r : Reg) (v : Nat) : (s.writeReg r v).shout = s.shout := rfl
@[simp] theorem writeReg_prog (r : Reg) (v : Nat) : (s.writeReg r v).prog = s.prog := rfl
@[simp] theorem writeReg_mem (r : Reg) (v : Nat) : (s.writeReg r v).mem = s.mem := rfl
@[simp] theorem writeReg_fault (r : Reg) (v : Nat) : (s.writeReg r v).fault = s.fault := rfl
@[simp] theorem writeReg_events (r : Reg) (v : Nat) : (s.writeReg r v).events = s.events ++ s.bank.reports r v := rfl
@[simp] theorem writeReg_lat (r : Reg) (v : Nat) : (s.writeReg r v).lat = s.lat := rfl

/-! ### aluResult -/

@[simp] theorem aluResult_bank (r : Word) : (s.aluResult r).bank = s.bank := rfl
@[simp] theorem aluResult_mpc (r : Word) : (s.aluResult r).mpc = s.mpc := rfl
@[simp] theorem aluResult_mir (r : Word) : (s.aluResult r).mir = s.mir := rfl
@[simp] theorem aluResult_mar (r : Word) : (s.aluResult r).mar = s.mar := rfl
@[simp] theorem aluResult_mbr (r : Word) : (s.aluResult r).mbr = s.mbr := rfl
@[simp] theorem aluResult_hs (r : Word) : (s.aluResult r).hs = s.hs := rfl
@[simp] theorem aluResult_z (r : Word) : (s.aluResult r).z = zFlag r := rfl
@[simp] theorem aluResult_n (r : Word) : (s.aluResult r).n = nFlag r := rfl
@[simp] theorem aluResult_shout (r : Word) : (s.aluResult r).shout = s.shout := rfl
@[simp] theorem aluResult_prog (r : Word) : (s.aluResult r).prog = s.prog := rfl
@[simp] theorem aluResult_mem (r : Word) : (s.aluResult r).mem = s.mem := rfl
@[simp] theorem aluResult_fault (r : Word) : (s.aluResult r).fault = s.fault := rfl
@[simp] theorem aluResult_events (r : Word) : (s.aluResult r).events = s.events := rfl
@[simp] theorem aluResult_lat (r : Word) : (s.aluResult r).lat = { s.lat with aluOut := r } := rfl

/-! ### routeA -/

@[simp] theorem routeA_bank (v : Word) : (s.routeA v).bank = s.bank := rfl
@[simp] theorem routeA_mpc (v : Word) : (s.routeA v).mpc = s.mpc := rfl
@[simp] theorem routeA_mir (v : Word) : (s.routeA v).mir = s.mir := rfl
@[simp] theorem routeA_mar (v : Word) : (s.routeA v).mar = s.mar := rfl
@[simp] theorem routeA_mbr (v : Word) : (s.routeA v).mbr = s.mbr := rfl
@[simp] theorem routeA_hs (v : Word) : (s.routeA v).hs = s.hs := rfl
@[simp] theorem routeA_z (v : Word) : (s.routeA v).z = s.z := rfl
@[simp] theorem routeA_n (v : Word) : (s.routeA v).n = s.n := rfl
@[simp] theorem routeA_shout (v : Word) : (s.routeA v).shout = s.shout := rfl
@[simp] theorem routeA_prog (v : Word) : (s.routeA v).prog = s.prog := rfl
@[simp] theorem routeA_mem (v : Word) : (s.routeA v).mem = s.mem := rfl
@[simp] theorem routeA_fault (v : Word) : (s.routeA v).fault = s.fault := rfl
@[simp] theorem routeA_events (v : Word) : (s.routeA v).events = s.events := rfl
@[simp] theorem routeA_lat (v : Word) : (s.routeA v).lat = { s.lat with aluA := v } := rfl

/-! ### routeB -/

@[simp] theorem routeB_bank (b : Reg) : (s.routeB b).bank = s.bank := rfl
@[simp] theorem routeB_mpc (b : Reg) : (s.routeB b).mpc = s.mpc := rfl
@[simp] theorem routeB_mir (b : Reg) : (s.routeB b).mir = s.mir := rfl
@[simp] theorem routeB_mar (b : Reg) : (s.routeB b).mar = s.mar := rfl
@[simp] theorem routeB_mbr (b : Reg) : (s.routeB b).mbr = s.mbr := rfl
@[simp] theorem routeB_hs (b : Reg) : (s.routeB b).hs = s.hs := rfl
@[simp] theorem routeB_z (b : Reg) : (s.routeB b).z = s.z := rfl
@[simp] theorem routeB_n (b : Reg) : (s.routeB b).n = s.n := rfl
@[simp] theorem routeB_shout (b : Reg) : (s.routeB b).shout = s.shout := rfl
@[simp] theorem routeB_prog (b : Reg) : (s.routeB b).prog = s.prog := rfl
@[simp] theorem routeB_mem (b : Reg) : (s.routeB b).mem = s.mem := rfl
@[simp] theorem routeB_fault (b : Reg) : (s.routeB b).fault = s.fault := rfl
@[simp] theorem routeB_events (b : Reg) : (s.routeB b).events = s.events := rfl
@[simp] theorem routeB_lat (b : Reg) : (s.routeB b).lat = { s.lat with aluB := s.bank.read b } := rfl

/-! ### branch -/

@[simp] theorem branch_bank (c : BitVec 2) (a : BitVec 8) : (s.branch c a).bank = s.bank := rfl
@[simp] theorem branch_mpc (c : BitVec 2) (a : BitVec 8) : (s.branch c a).mpc = nextMpc s.mpc c a s.z s.n := rfl
@[simp] theorem branch_mir (c : BitVec 2) (a : BitVec 8) : (s.branch c a).mir = s.mir := rfl
@[simp] theorem branch_mar (c : BitVec 2) (a : BitVec 8) : (s.branch c a).mar = s.mar := rfl
@[simp] theorem branch_mbr (c : BitVec 2) (a : BitVec 8) : (s.branch c a).mbr = s.mbr := rfl
@[simp] theorem branch_hs (c : BitVec 2) (a : BitVec 8) : (s.branch c a).hs = s.hs := rfl
@[simp] theorem branch_z (c : BitVec 2) (a : BitVec 8) : (s.branch c a).z = s.z := rfl
@[simp] theorem branch_n (c : BitVec 2) (a : BitVec 8) : (s.branch c a).n = s.n := rfl
@[simp] theorem branch_shout (c : BitVec 2) (a : BitVec 8) : (s.branch c a).shout = s.shout := rfl
@[simp] theorem branch_prog (c : BitVec 2) (a : BitVec 8) : (s.branch c a).prog = s.prog := rfl
@[simp] theorem branch_mem (c : BitVec 2) (a : BitVec 8) : (s.branch c a).mem = s.mem := rfl
@[simp] theorem branch_fault (c : BitVec 2) (a : BitVec 8) : (s.branch c a).fault = s.fault := rfl
@[simp] theorem branch_events (c : BitVec 2) (a : BitVec 8) : (s.branch c a).events = s.events := rfl
@[simp] theorem branch_lat (c : BitVec 2) (a : BitVec 8) : (s.branch c a).lat = s.lat := rfl

end Sys2Proof.Laws.State
end

