-- ==== Sys2Proof/Laws/Ops.lean ====
section
/-! SUPPORT. What each shared operation can do, said once. -/

namespace Sys2Proof.Laws

open Sys2Proof.Machine

/-! ## The bank -/

theorem bank_read_store_same (b : Bank) {r : Reg} (v : Word) (h : isMutable r = true) :
    (b.store r v).read r = v := by
  cases r <;> first | rfl | simp [isMutable] at h

theorem bank_read_store_other (b : Bank) {q r : Reg} (v : Word) (h : q ≠ r) :
    (b.store r v).read q = b.read q := by
  cases r <;> cases q <;> first | rfl | exact absurd rfl h

/-- A constant has no storage. -/
theorem bank_store_constant (b : Bank) {r : Reg} (v : Word) (h : isMutable r = false) :
    b.store r v = b := by
  cases r <;> first | rfl | simp [isMutable] at h

/-- A constant reads the same in every bank. -/
theorem bank_read_constant (b b' : Bank) {r : Reg} (h : isMutable r = false) :
    b.read r = b'.read r := by
  cases r <;> first | rfl | simp [isMutable] at h

/-- Inside a cycle no value overflows: a word always fits (rule R17). -/
theorem checkWidth_word (v : Word) : checkWidth v.toNat = .ok v := by
  simp [checkWidth, v.isLt]

/-- The bank after a write of a word: a store, which a constant ignores. -/
theorem bank_after_word (b : Bank) (r : Reg) (v : Word) : b.after r v.toNat = b.store r v := by
  cases h : isMutable r
  · simp [Bank.after, Bank.write, h, bank_store_constant b v h]
  · simp only [Bank.after, Bank.write, h, checkWidth_word, if_true]

/-- What a write of a word reports: `ImmutableWrite` on a constant, nothing else ever. -/
theorem bank_reports_word (b : Bank) (r : Reg) (v : Word) :
    b.reports r v.toNat = if isMutable r then [] else [ErrorKind.immutableWrite.event] := by
  cases h : isMutable r <;> simp [Bank.reports, Bank.write, h, checkWidth_word]

/-! ## Memory -/

theorem lookup_insert_same (m : Memory) (a : Nat) (v : Word) :
    (m.insert a v).lookup a = some v := by
  induction m with
  | nil => simp [Memory.insert, Memory.lookup]
  | cons p rest ih =>
    obtain ⟨k, u⟩ := p
    unfold Memory.insert
    split
    · simp [Memory.lookup]
    · split
      · simp [Memory.lookup]
      · rw [Memory.lookup, if_neg (by omega), ih]

theorem lookup_insert_other (m : Memory) {a b : Nat} (v : Word) (h : b ≠ a) :
    (m.insert a v).lookup b = m.lookup b := by
  induction m with
  | nil => simp [Memory.insert, Memory.lookup, Ne.symm h]
  | cons p rest ih =>
    obtain ⟨k, u⟩ := p
    unfold Memory.insert
    split
    · rw [Memory.lookup, if_neg (Ne.symm h)]
    · split
      · subst_vars
        simp [Memory.lookup, Ne.symm h]
      · simp only [Memory.lookup, ih]

/-- A list whose addresses start at `lo` also starts at any smaller bound. -/
theorem wfFrom_mono {m : Memory} {lo lo' : Nat} (h : lo' ≤ lo) (hm : m.wfFrom lo = true) :
    m.wfFrom lo' = true := by
  cases m with
  | nil => rfl
  | cons p rest =>
    obtain ⟨k, u⟩ := p
    simp only [Memory.wfFrom, Bool.and_eq_true, decide_eq_true_eq] at hm ⊢
    exact ⟨⟨by omega, hm.1.2⟩, hm.2⟩

theorem wfFrom_insert (m : Memory) {lo a : Nat} (v : Word) (hlo : lo ≤ a) (ha : a < 2 ^ 16)
    (hm : m.wfFrom lo = true) : (m.insert a v).wfFrom lo = true := by
  induction m generalizing lo with
  | nil => simpa [Memory.insert, Memory.wfFrom, hlo] using ha
  | cons p rest ih =>
    obtain ⟨k, u⟩ := p
    simp only [Memory.wfFrom, Bool.and_eq_true, decide_eq_true_eq] at hm
    unfold Memory.insert
    split
    · simp only [Memory.wfFrom, Bool.and_eq_true, decide_eq_true_eq]
      exact ⟨⟨hlo, ha⟩, ⟨by omega, hm.1.2⟩, hm.2⟩
    · split
      · subst_vars
        simp only [Memory.wfFrom, Bool.and_eq_true, decide_eq_true_eq]
        exact ⟨⟨hlo, ha⟩, hm.2⟩
      · simp only [Memory.wfFrom, Bool.and_eq_true, decide_eq_true_eq]
        exact ⟨hm.1, ih (by omega) hm.2⟩

/-- The one memory operation that writes keeps the canonical form. -/
theorem write_keeps_wf {m : Memory} (a v : Word) (hm : m.wf = true) : (m.write a v).wf = true :=
  wfFrom_insert m v (Nat.zero_le _) a.isLt hm

/-- The memory of the reset state is in canonical form. -/
theorem reset_mem_wf : State.reset.mem.wf = true := rfl

/-! ## The memory port -/

/-- A request that does not commit changes the handshake alone. -/
theorem request_waits (s : State) (op : MemOp) (h : (s.hs.shift.set op).commits = false) :
    s.request op = s.setHs (s.hs.shift.set op) := by
  simp [State.request, h]

/-- A request that commits performs its operation and leaves the port idle. -/
theorem request_commits (s : State) (op : MemOp) (h : (s.hs.shift.set op).commits = true) :
    s.request op = (s.perform op).setHs Handshake.idle := by
  simp only [State.request, h, if_true]
  rfl

/-- The port never touches anything but the handshake, MBR and memory. -/
theorem request_frame (s : State) (op : MemOp) :
    s.request op = { s with hs := (s.request op).hs, mbr := (s.request op).mbr,
                            mem := (s.request op).mem } := by
  cases h : (s.hs.shift.set op).commits
  · rw [request_waits s op h]; rfl
  · rw [request_commits s op h]; cases op <;> rfl

/-! ## Rows and cycles -/

/-- Every row completes. -/
theorem exec_next (i : Instr) (s : State) : ∃ t, exec i s = .next t := by
  cases i <;> exact ⟨_, rfl⟩

/-- Only a conflict records a fatal error. -/
theorem exec_fault {i : Instr} {s t : State} (h : exec i s = .next t) (hi : i ≠ .memConflict) :
    t.fault = s.fault := by
  cases i <;> cases h <;> first | rfl | (exact absurd rfl hi) | (rw [request_frame])

/-- A row that records no fatal error passes its state to the rest of the word. -/
theorem runRows_cons {i : Instr} {rest : Microinstruction} {s t : State} (h : exec i s = .next t)
    (hf : t.fault = none) : runRows (i :: rest) s = runRows rest t := by
  simp [runRows, h, hf]

/-- A row that records a fatal error ends the word. -/
theorem runRows_stops {i : Instr} {rest : Microinstruction} {s t : State} {k : FatalKind}
    (h : exec i s = .next t) (hf : t.fault = some k) : runRows (i :: rest) s = .next t := by
  simp [runRows, h, hf]

/-- Running a word always completes. -/
theorem runRows_next (l : Microinstruction) (s : State) : ∃ t, runRows l s = .next t := by
  induction l generalizing s with
  | nil => exact ⟨s, rfl⟩
  | cons i rest ih =>
    obtain ⟨t, ht⟩ := exec_next i s
    cases hf : t.fault with
    | none => rw [runRows_cons ht hf]; exact ih t
    | some k => exact ⟨t, runRows_stops ht hf⟩

end Sys2Proof.Laws
end

