-- ==== Sys2Proof/Laws/PerInstr.lean ====
section
/-! SUPPORT. Per-instruction lemmas: each row's bits against its mask and match in
spec/opcode_table.json. -/

namespace Sys2Proof.Laws.RowBits

/-- The row's own word has the row's control bits, and its operand lies outside them and inside the
fields the table gives the row. -/
abbrev Statement (i : Instr) : Prop :=
  encodeRow i &&& i.rowMask = i.rowMatch ∧ i.operandBits &&& ~~~i.rowFields = 0

/-- An 8-bit operand at bit 0 meets no bit from 8 up. -/
theorem place_addr (addr : BitVec 8) (m : UWord) (hm : m &&& 0xFF = 0) : place addr 0 &&& m = 0 := by
  apply BitVec.eq_of_getLsbD_eq
  intro k hk
  have h := congrArg (fun v => v.getLsbD k) hm
  simp only [BitVec.getLsbD_and] at h
  by_cases h8 : k < 8
  · have hFF : ∀ j < 8, (0xFF : UWord).getLsbD j = true := by decide
    rw [hFF k h8] at h
    simp only [Bool.and_true, BitVec.ofNat_eq_ofNat, BitVec.getLsbD_zero] at h
    simp [h]
  · simp [place, BitVec.getLsbD_of_ge addr k (by omega)]

theorem amuxA (a : Reg) : Statement (.amuxA a) := by cases a <;> decide
theorem amuxMbr : Statement .amuxMbr := by decide
theorem aluAdd (b : Reg) : Statement (.aluAdd b) := by cases b <;> decide
theorem aluAnd (b : Reg) : Statement (.aluAnd b) := by cases b <;> decide
theorem aluPassA (b : Reg) : Statement (.aluPassA b) := by cases b <;> decide
theorem aluNotA (b : Reg) : Statement (.aluNotA b) := by cases b <;> decide
theorem shPass : Statement .shPass := by decide
theorem shSrl1 : Statement .shSrl1 := by decide
theorem shSll1 : Statement .shSll1 := by decide
theorem shUndef : Statement .shUndef := by decide
theorem ldMbr : Statement .ldMbr := by decide
theorem ldMar (b : Reg) : Statement (.ldMar b) := by cases b <;> decide
theorem memNone : Statement .memNone := by decide
theorem memRd : Statement .memRd := by decide
theorem memWr : Statement .memWr := by decide
theorem memConflict : Statement .memConflict := by decide
theorem enc (c : Reg) : Statement (.enc c) := by cases c <;> decide
theorem condNone : Statement .condNone := by decide

/-- The three branch rows: their match is inside the mask, and ADDR meets neither. -/
theorem branch_bits (addr : BitVec 8) (m : UWord) (hm : m &&& 0x60000000 = m) :
    (m ||| place addr 0) &&& 0x60000000 = m ∧ place addr 0 &&& ~~~(0x000000FF : UWord) = 0 := by
  refine ⟨?_, place_addr addr _ (by decide)⟩
  have h := place_addr addr 0x60000000 (by decide)
  have hd : (m ||| place addr 0) &&& 0x60000000 =
      (m &&& 0x60000000) ||| (place addr 0 &&& 0x60000000) := by
    ext k
    simp only [BitVec.getElem_and, BitVec.getElem_or, Bool.and_or_distrib_right]
  rw [hd, h, hm]
  simp

theorem condN (addr : BitVec 8) : Statement (.condN addr) :=
  branch_bits addr 0x20000000 (by decide)
theorem condZ (addr : BitVec 8) : Statement (.condZ addr) :=
  branch_bits addr 0x40000000 (by decide)
theorem condAlways (addr : BitVec 8) : Statement (.condAlways addr) :=
  branch_bits addr 0x60000000 (by decide)

end Sys2Proof.Laws.RowBits
end

