-- ==== Sys2Proof/Tests/Slice0.lean ====
section
/-! SUPPORT. The author's own tests. Expected values: spec/95_test_vectors.md and hand calculation from
the rules named. Then one witness for each statement that has hypotheses. -/

namespace Sys2Proof.Tests

open Sys2Proof.Machine Sys2Proof.Safety

/-! ## WellFormed refuses -/

theorem test_wf_accepts :
    WellFormed [.amuxA .ra, .ldMar .rb, .aluAdd .rb, .shPass, .memNone, .condNone] = true := by decide
/-- Out of cycle order: the shifter before the ALU. -/
theorem test_wf_order :
    WellFormed [.amuxA .ra, .shPass, .aluAdd .rb, .memNone, .condNone] = false := by decide
/-- Two rows of one group. -/
theorem test_wf_twice :
    WellFormed [.amuxA .ra, .aluAdd .rb, .aluAnd .rb, .shPass, .memNone, .condNone] = false := by
  decide
/-- No row of the COND group. -/
theorem test_wf_missing :
    WellFormed [.amuxA .ra, .aluAdd .rb, .shPass, .memNone] = false := by decide
/-- Two registers on bus B. -/
theorem test_wf_two_b :
    WellFormed [.amuxA .ra, .ldMar .rc, .aluAdd .rb, .shPass, .memNone, .condNone] = false := by
  decide

/-! ## Decoding: words written out bit by bit from rule R41

AMUX COND ALU SH MBR MAR RD WR ENC C B A ADDR -/

theorem test_decode_scenarioA : decode 0b0_00_00_00_0_0_0_0_1_1100_1011_1010_00000000 =
    [.amuxA .ra, .aluAdd .rb, .shPass, .memNone, .enc .rc, .condNone] := by decide
theorem test_decode_amuxMbr_and_srl : decode 0b1_01_01_01_0_0_1_0_0_0000_0110_0000_00000111 =
    [.amuxMbr, .aluAnd .plus1, .shSrl1, .memRd, .condN 7] := by decide
theorem test_decode_pass_sll_wr : decode 0b0_10_10_10_1_1_0_1_0_0000_1110_1101_00001001 =
    [.amuxA .rd, .ldMar .re, .aluPassA .re, .shSll1, .memWr, .ldMbr, .condZ 9] := by decide
theorem test_decode_nota_undef_conflict : decode 0b0_11_11_11_0_0_1_1_1_0101_0111_0001_11111111 =
    [.amuxA .ac, .aluNotA .minus1, .shUndef, .memConflict, .enc .zero, .condAlways 255] := by decide
theorem test_encode_scenarioA : encode
    [.amuxA .ra, .aluAdd .rb, .shPass, .memNone, .enc .rc, .condNone] = 0x001CBA00 := by decide
theorem test_reject_short : decodeBits 16 0 = .error (.notOneWord 16) := by decide
theorem test_reject_wide : decodeBits 32 (2 ^ 32) = .error (.tooWide (2 ^ 32)) := by decide
theorem test_table_word_memRd : decodeTableWord 32 0x00400000 = some .memRd := by decide
theorem test_table_word_aluAdd : decodeTableWord 32 0x0000BA00 = some (.aluAdd .rb) := by decide

/-! ## One step -/

def zeroBank : Bank := ⟨0, 0, 0, 0, 0, 0, 0, 0, 0, 0, 0⟩

/-- A machine about to run the one word at index 0, everything else 0. -/
def one (w : UWord) : State := State.initial ⟨zeroBank, 0, 0, 0, 0, [w], []⟩

/-- The state a step answers; the state itself where it stops. -/
def after (s : State) : State :=
  match step s with
  | .next t => t
  | .fault _ => s
  | .refused _ => s

/-- The port waiting for the second cycle of `op`. -/
def pending (op : MemOp) : Handshake := ⟨false, true, .none, op⟩

/-- Scenario A (95, 1.4). -/
theorem test_scenarioA :
    let t := after { one 0x001CBA00 with bank := { zeroBank with ra := 12, rb := 1 } }
    (t.bank.rc, t.shout, t.mpc, t.z, t.n) = (13, 13, 1, false, false) := by decide
/-- 0x7FFF + 1 = 0x8000 sets N, and COND 00 holds (95, 2.2). -/
theorem test_add_sign :
    let t := after { one 0x00006A00 with bank := { zeroBank with ra := 0x7FFF } }
    (t.shout, t.mpc, t.z, t.n) = (0x8000, 0, false, true) := by decide
/-- 0xABCD AND SMASK = 0x00CD (95, 2.2). -/
theorem test_and_smask :
    (after { one 0x08009A00 with bank := { zeroBank with ra := 0xABCD } }).shout = 0x00CD := by decide
/-- PASSA 0x8001 with b ignored: N (95, 2.2). -/
theorem test_passA_sign :
    let t := after { one 0x10007A00 with bank := { zeroBank with ra := 0x8001 } }
    (t.shout, t.n) = (0x8001, true) := by decide
/-- NOTA 0x00FF = 0xFF00 (95, 2.2). -/
theorem test_notA :
    (after { one 0x18007A00 with bank := { zeroBank with ra := 0x00FF } }).shout = 0xFF00 := by decide
/-- AMUX = 1 reads MBR, not R[0] (95, 2.4). -/
theorem test_amuxMbr :
    (after { one 0x901F5000 with mbr := 5, bank := { zeroBank with pc := 9 } }).bank.rf = 5 := by decide
/-- SRL1 does not copy the sign bit (95, 2.3). -/
theorem test_srl1 :
    (after { one 0x12005A00 with bank := { zeroBank with ra := 0x8000 } }).shout = 0x4000 := by decide
/-- SLL1 loses the top bit; the flags are the ALU's (95, 2.3). -/
theorem test_sll1 :
    let t := after { one 0x14005A00 with bank := { zeroBank with ra := 0xFFFF } }
    (t.shout, t.z, t.n) = (0xFFFE, false, true) := by decide
/-- SH = 11 with ENC to a constant: both events, in order, and SHOUT kept (95, 2.3 cycle 3). -/
theorem test_undef_then_immutable :
    let t := after { one 0x16155600 with shout := 0x42 }
    (t.shout, t.events, t.mpc) =
      (0x42, [⟨.undefinedShiftOp, .error⟩, ⟨.immutableWrite, .error⟩], 1) := by decide
/-- LD_MAR takes bus B, not the ALU output (95, 2.4). -/
theorem test_ldMar :
    (after { one 0x1080BA00 with bank := { zeroBank with ra := 7, rb := 0x20 } }).mar = 0x20 := by decide
/-- LD_MBR takes the shifter output (95, 2.4). -/
theorem test_ldMbr :
    (after { one 0x15005A00 with bank := { zeroBank with ra := 3 } }).mbr = 6 := by decide
/-- The first cycle of a Read moves no data (95, 1.5 cycle 3). -/
theorem test_read_waits :
    let t := after { one 0x10405600 with mem := [(0, 5)] }
    (t.mbr, t.hs) = (0, ⟨false, true, .none, .read⟩) := by decide
/-- The second delivers the word at the MAR of its own subcycle 2 (95, 2.5). -/
theorem test_read_commits :
    let t := after { one 0x10C0B600 with
      hs := pending .read, mem := [(0, 9), (3, 0x77)], bank := { zeroBank with rb := 3 } }
    (t.mar, t.mbr, t.hs) = (3, 0x77, Handshake.idle) := by decide
/-- A committing Write stores the old MBR (95, 2.5). -/
theorem test_write_commits :
    let t := after { one 0x11205A00 with
      hs := pending .write, mbr := 0x11, mem := [(0, 9)], bank := { zeroBank with ra := 0x55 } }
    (t.mem, t.mbr) = ([(0, 0x11)], 0x55) := by decide
/-- A Read after a pending Write does not commit (95, 2.5). -/
theorem test_alternating :
    let t := after { one 0x10405600 with hs := pending .write, mbr := 1, mem := [(0, 9)] }
    (t.mbr, t.hs) = (1, ⟨true, true, .write, .read⟩) := by decide
/-- MEM_NONE unpairs a pending request. -/
theorem test_none_unpairs :
    (after { one 0x10005600 with hs := pending .read }).hs = ⟨true, false, .read, .none⟩ := by decide
/-- The conflict vector (95, 2.5). -/
theorem test_conflict :
    let t := after { one 0x10FCBA00 with bank := { zeroBank with ra := 7, rb := 0x20 } }
    (t.fault, t.mar, t.shout, t.bank.rc, t.mpc, t.hs) =
      (some .conflictingMemoryOp, 0x20, 7, 0, 0, Handshake.idle) := by decide
/-- COND_N: N jumps (95, 2.6). -/
theorem test_condN_jumps : (after (one 0x30005709)).mpc = 9 := by decide
/-- COND_N: Z holds (95, 2.6). -/
theorem test_condN_holds : (after (one 0x28005509)).mpc = 0 := by decide
/-- COND_Z: Z jumps (95, 2.6). -/
theorem test_condZ_jumps : (after (one 0x48005509)).mpc = 9 := by decide
/-- COND_Z: N holds (95, 2.6). -/
theorem test_condZ_holds : (after (one 0x50005709)).mpc = 0 := by decide
/-- Scenario C: COND_ALWAYS does not jump without a flag (95, 1.6). -/
theorem test_scenarioC : (after (one 0x70000602)).mpc = 1 := by decide
theorem test_condAlways_jumps : (after (one 0x68005509)).mpc = 9 := by decide
/-- An empty program faults and changes nothing else (95, 2.7). -/
theorem test_empty_program :
    after { one 0 with prog := [] } =
      { one 0 with prog := [], fault := some .programCounterOutOfRange } := by decide
/-- The word is the first instruction after reset. -/
theorem test_first_after_reset :
    (after (State.reset.withFetchWord 32 0x68005509)).mpc = 9 := by decide

/-! ## The host -/

def errorOf (r : Except ErrorKind Setup) : Option ErrorKind :=
  match r with
  | .ok _ => none
  | .error e => some e

theorem test_seed_constant : errorOf (Setup.unseeded.seed "-1" 5) = some .immutableWrite := by decide
theorem test_seed_too_large : errorOf (Setup.unseeded.seed "AC" 0x10000) = some .overflow := by decide
theorem test_seed_unknown : errorOf (Setup.unseeded.seed "MAR" 3) = some .unknownRegisterName := by
  decide
theorem test_seed_in_range :
    (Setup.attempt (Setup.unseeded.seed "SP" 0xFFFF) Setup.unseeded).bank.sp = 0xFFFF := by decide
theorem test_memseed_past_the_end :
    errorOf (Setup.unseeded.memseed 0x10000 0) = some .overflow := by decide
/-- Event order with a fatal error: the event, then the fatal one (95, 2.7). -/
theorem test_report :
    (runFullCycle (one 0x16605600)).map (fun p => p.2) =
      some [⟨.undefinedShiftOp, .error⟩, ⟨.conflictingMemoryOp, .fatal⟩] := by decide

/-! ## Witnesses: each statement's hypotheses can be met together -/

theorem fetches_one (w : UWord) : Fetches (one w) w := ⟨rfl, rfl⟩

theorem witness_DecodeOfEncode : WellFormed (decode 0x11A0ED00) = true := by decide
theorem witness_EveryRowDecodes_selected :
    (0xFFFFFFFF : UWord) &&& (Instr.memConflict).rowMask = Instr.memConflict.rowMatch := by decide
/-- Two different words with the same rows: they differ in A (AMUX = 1), C (ENC = 0), ADDR (COND 00). -/
theorem witness_DecodeDropsOnlyUnusedFields : decode 0x800F0FFF = decode 0x80000000 := by decide
theorem witness_TableWord : (32 = 32 ∧ 0xFFFFFFFF < 2 ^ 32) ∧ ¬(16 = 32 ∧ 0 < 2 ^ 32) := by decide
/-- Both clauses of EncRow, at the registers on each side of the constants' range 5 to 9. -/
theorem witness_EncRow : isMutable .tir = true ∧ isMutable .zero = false ∧ isMutable .smask = false ∧
    isMutable .ra = true := by decide
/-- All four clauses of PortRows. -/
theorem witness_PortRows :
    commitsNow { one 0 with hs := pending .read } .read = true ∧
    commitsNow { one 0 with hs := pending .read } .write = false ∧
    commitsNow { one 0 with hs := pending .write } .write = true ∧
    commitsNow { one 0 with hs := pending .write } .read = false := by decide
/-- The three flag settings of BranchRows. -/
theorem witness_BranchRows : ∀ z n : Bool, ¬(z && n) = true →
    ¬({ one 0 with z := z, n := n }.z = true ∧ { one 0 with z := z, n := n }.n = true) := by decide
theorem witness_EveryRowFrame :
    exec .memWr { one 0 with hs := pending .write, mbr := 7 } =
      .next { one 0 with mbr := 7, mem := [(0, 7)] } := rfl
theorem witness_StepRuns_both_ways :
    (exec .memNone (one 0) = .next (one 0) ∧ (one 0).fault = none) ∧
    ∃ t, exec .memConflict (one 0) = .next t ∧ t.fault ≠ none :=
  ⟨⟨rfl, rfl⟩, _, rfl, by decide⟩
theorem witness_CycleFollows : (one 0).fault = none := rfl
/-- Both clauses of FetchPastTheProgram, at the program's end and at its last word. -/
theorem witness_FetchPast :
    ({ one 0 with mpc := 1 }.fault = none ∧ { one 0 with mpc := 1 }.prog.length ≤ 1) ∧
    ((one 0).fault = none ∧ (one 0).mpc < (one 0).prog.length) := by decide
theorem witness_FaultedMachine :
    { one 0 with fault := some .conflictingMemoryOp }.fault = some .conflictingMemoryOp := rfl
/-- Every value of ALU and of SH, with a word to fetch. -/
theorem witness_AluAndShifter : ∀ a b : BitVec 2,
    ∃ w, Fetches (one w) w ∧ (unpack w).alu = a ∧ (unpack w).sh = b ∧ (unpack w).enc = 0 := by
  intro a b
  refine ⟨pack ⟨0, 0, a, b, 0, 0, 0, 0, 0, 0, 0, 0, 0⟩, fetches_one _, ?_, ?_, ?_⟩ <;>
    revert a b <;> decide
theorem witness_UndefinedShift : Fetches (one 0x161D5600) 0x161D5600 ∧
    (unpack 0x161D5600).sh = 0b11#2 ∧ ¬isConflict (unpack 0x161D5600) ∧
    (unpack 0x161D5600).enc = 1 ∧ isMutable (Reg.ofIndex (unpack 0x161D5600).c) = true :=
  ⟨fetches_one _, by decide, by unfold isConflict; decide, by decide, by decide⟩
/-- The clauses of LoadsAndWriteBack: loads into a mutable register, a constant, and a conflict. -/
theorem witness_Loads :
    (Fetches (one 0x119A5000) 0x119A5000 ∧ ¬isConflict (unpack 0x119A5000) ∧
      (unpack 0x119A5000).mar = 1 ∧ (unpack 0x119A5000).mbr = 1 ∧ (unpack 0x119A5000).enc = 1 ∧
      isMutable (Reg.ofIndex (unpack 0x119A5000).c) = true) ∧
    (Fetches (one 0x10155000) 0x10155000 ∧ ¬isConflict (unpack 0x10155000) ∧
      (unpack 0x10155000).mar = 0 ∧ isMutable (Reg.ofIndex (unpack 0x10155000).c) = false) ∧
    (Fetches (one 0x00600000) 0x00600000 ∧ isConflict (unpack 0x00600000) ∧
      (unpack 0x00600000).enc = 0) := by
  refine ⟨⟨fetches_one _, ?_⟩, ⟨fetches_one _, ?_⟩, ⟨fetches_one _, ?_⟩⟩ <;> unfold isConflict <;> decide
/-- The table's columns: no flag, N and Z, each with a COND that jumps and one that holds. -/
theorem witness_NextMpc :
    ∀ c : BitVec 2, ∃ w, Fetches (one w) w ∧ ¬isConflict (unpack w) ∧ (unpack w).cond = c ∧
      ((after (one w)).z, (after (one w)).n) = (true, false) := by
  intro c
  refine ⟨pack ⟨0, c, 1, 0, 0, 0, 0, 0, 0, 0, 5, 5, 9⟩, fetches_one _, ?_, ?_, ?_⟩ <;>
    (try unfold isConflict) <;> revert c <;> decide
theorem witness_NextMpc_other_flags :
    ((after (one 0x70005700)).z, (after (one 0x70005700)).n) = (false, true) ∧
    ((after (one 0x70005600)).z, (after (one 0x70005600)).n) = (false, false) := by decide
/-- Every clause of PortOfEveryCycle: a committing Read, a committing Write, a waiting request. -/
theorem witness_PortOfEveryCycle :
    (¬isConflict (unpack 0x10405600) ∧ requestOf (unpack 0x10405600) = .read ∧
      commitsNow { one 0x10405600 with hs := pending .read } .read = true ∧
      (unpack 0x10405600).mbr = 0 ∧ commitsNow (one 0x10405600) .read = false) ∧
    (¬isConflict (unpack 0x10205600) ∧ requestOf (unpack 0x10205600) = .write ∧
      commitsNow { one 0x10205600 with hs := pending .write } .write = true) := by
  unfold isConflict
  decide
theorem witness_PortComesBefore : (unpack 0x11205A00).mbr = 1 ∧ ¬isConflict (unpack 0x11205A00) ∧
    requestOf (unpack 0x11205A00) = .write ∧
    commitsNow { one 0x11205A00 with hs := pending .write } .write = true := by
  unfold isConflict
  decide
theorem witness_Conflict : Fetches (one 0x10FCBA00) 0x10FCBA00 ∧ isConflict (unpack 0x10FCBA00) :=
  ⟨fetches_one _, by unfold isConflict; decide⟩
theorem witness_Errors : Fetches (one 0x16155600) 0x16155600 ∧ Fetches (one 0x16605600) 0x16605600 :=
  ⟨fetches_one _, fetches_one _⟩
theorem witness_CycleFrame : Fetches (one 0x001CBA00) 0x001CBA00 ∧
    ∃ t, step (one 0x001CBA00) = .next t := ⟨fetches_one _, _, rfl⟩
theorem witness_MpcMoves : ∃ t, step (one 0x60000000) = .next t := ⟨_, rfl⟩
/-- The hold: AND of "0" and "0" with COND 00 (95, 2.6 "Hold forever"), and its N side. -/
theorem witness_Hold : ∀ w ∈ [(0x08005500 : UWord), 0x10005700], Fetches (one w) w ∧
    (unpack w).mbr = 0 ∧ (unpack w).mar = 0 ∧ (unpack w).enc = 0 ∧ (unpack w).rd = 0 ∧
    (unpack w).wr = 0 ∧ (unpack w).sh ≠ 3 ∧
    (referenceZ (referenceResult (unpack w) (one w)) = true ∧ (unpack w).cond.getLsbD 1 = false ∨
      referenceN (referenceResult (unpack w) (one w)) = true ∧
        (unpack w).cond.getLsbD 0 = false) := by
  intro w hw
  refine ⟨fetches_one w, ?_⟩
  simp only [List.mem_cons, List.not_mem_nil, or_false] at hw
  rcases hw with rfl | rfl <;> decide
/-- The spec's Stop word at index 0. -/
theorem witness_Stop : Halted 0 (one 0x68005500) :=
  ⟨rfl, rfl, 0x68005500, rfl, ⟨by decide, by decide, by decide, by decide, by decide, by decide,
    by decide, by decide⟩, by decide⟩
theorem witness_Held : MemOp.read ≠ .none ∧
    ¬(Handshake.idle.thisReq = true ∧ Handshake.idle.thisOp = .read) := by decide
/-- Two cycles of a Read, and of a Write, from an idle port, of one word that jumps to itself. -/
theorem witness_Sustained : ∀ w ∈ [(0x68405500 : UWord), 0x68205500],
    ∃ t, Fetches (one w) w ∧ step (one w) = .next t ∧ Fetches t w ∧ ¬isConflict (unpack w) ∧
      (unpack w).mbr = 0 ∧ requestOf (unpack w) ≠ .none ∧ (one w).hs.thisReq = false := by
  intro w hw
  simp only [List.mem_cons, List.not_mem_nil, or_false] at hw
  rcases hw with rfl | rfl <;>
    refine ⟨_, fetches_one _, rfl, ⟨rfl, rfl⟩, ?_, ?_, ?_, rfl⟩ <;>
    (try unfold isConflict) <;> decide
/-- Each clause of RegisterWriteRule and of seeding, at the edges of the range of values. -/
theorem witness_RegisterWrite : isMutable .minus1 = false ∧ isMutable .ac = true ∧
    2 ^ 16 ≤ 0x10000 ∧ 0xFFFF < 2 ^ 16 := by decide
theorem witness_Seeding : registerByName "MAR" = .error .unknownRegisterName ∧
    registerByName "-1" = .ok .minus1 ∧ registerByName "AC" = .ok .ac := by decide
theorem witness_Preload : (2 ^ 16 ≤ 0x10000 ∨ 2 ^ 16 ≤ 0) ∧ (2 ^ 16 ≤ 0 ∨ 2 ^ 16 ≤ 0x10000) ∧
    0xFFFF < 2 ^ 16 := by decide
theorem witness_Memory : (1 : Word) ≠ 0 := by decide
theorem witness_Canonical : Memory.wf [(0, 9), (0xFFFF, 1)] = true ∧
    Memory.wf [(0, 9), (0x10000, 1)] = false ∧ Memory.wf [(3, 1), (3, 2)] = false := by decide
/-- A placed word beside another word, and past the end of the program. -/
theorem witness_Placed : (1 < (State.initial ⟨zeroBank, 0, 0, 0, 0, [1, 2], []⟩).prog.length ∧
      1 ≠ (State.initial ⟨zeroBank, 0, 0, 0, 0, [1, 2], []⟩).mpc) ∧
    ({ one 5 with mpc := 3 }.withFetchWord 32 7).prog = [5, 7, 7, 7] := by decide
theorem witness_Stale : Fetches (one 0x60000000) 0x60000000 ∧
    { one 0x60000000 with z := true, n := true } ≠ one 0x60000000 := ⟨fetches_one _, by decide⟩
theorem witness_Initial : Memory.wf (Setup.mk zeroBank 0 0 0 0 [] [(0xFFFF, 1)]).mem = true := by
  decide
theorem witness_Inv : Inv (one 0x001CBA00) ∧ ∃ t, step (one 0x001CBA00) = .next t :=
  ⟨⟨rfl, by decide, ⟨rfl, rfl, rfl⟩, rfl, by decide⟩, _, rfl⟩
theorem witness_Run : Inv (one 0x001CBA00) ∧
    ∃ t, Reaches (one 0x001CBA00) t ∧ t.mpc = 0 ∧ Reaches (one 0x60000000) (after (one 0x60000000)) :=
  ⟨witness_Inv.1, one 0x001CBA00, .refl _, rfl, .step (.refl _) rfl⟩

end Sys2Proof.Tests
end

