-- ==== Sys2Proof/Proofs/FieldPacking.lean ====
section
/-! PROOFS. Fields and words (rule R42): what `place` puts where, and the two directions of "unpacking
is the inverse of packing". -/

namespace Sys2Proof.Proofs

/-! ## One placed field -/

/-- A placed field holds the field's bits from its position up, and no others. -/
theorem getLsbD_place {n : Nat} (v : BitVec n) (lo k : Nat) :
    (place v lo).getLsbD k = (decide (k < 32) && decide (lo ≤ k) && v.getLsbD (k - lo)) := by
  by_cases hlo : lo ≤ k
  · by_cases h32 : k < 32
    · simp [place, hlo, h32, Nat.not_lt.mpr hlo]
    · simp [place, h32]
  · simp [place, hlo, Nat.lt_of_not_le hlo]

/-- A field placed inside the word is read back at its own position. -/
theorem extractLsb'_place_same {n : Nat} (v : BitVec n) (lo : Nat) (h : lo + n ≤ 32) :
    (place v lo).extractLsb' lo n = v := by
  apply BitVec.eq_of_getLsbD_eq
  intro k hk
  have h32 : lo + k < 32 := by omega
  rw [BitVec.getLsbD_extractLsb', getLsbD_place]
  simp [hk, h32]

/-- A placed field leaves every window of the word that it does not meet at 0. -/
theorem extractLsb'_place_disjoint {n : Nat} (v : BitVec n) (lo lo' m : Nat)
    (h : lo' + m ≤ lo ∨ lo + n ≤ lo') : (place v lo).extractLsb' lo' m = 0#m := by
  apply BitVec.eq_of_getLsbD_eq
  intro k _
  rw [BitVec.getLsbD_extractLsb', getLsbD_place, BitVec.getLsbD_zero]
  rcases h with below | above
  · have hlo : ¬lo ≤ lo' + k := by omega
    simp [hlo]
  · have hn : n ≤ lo' + k - lo := by omega
    simp [BitVec.getLsbD_of_ge v _ hn]

/-! ## Fields of one word, placed back -/

/-- Two adjacent fields of a word, each placed back, are the field that spans them, placed back. -/
theorem place_extractLsb'_or_adjacent (w : UWord) (lo m hi n : Nat) (h : hi = lo + m) :
    place (w.extractLsb' hi n) hi ||| place (w.extractLsb' lo m) lo =
      place (w.extractLsb' lo (m + n)) lo := by
  subst h
  apply BitVec.eq_of_getLsbD_eq
  intro k hk
  simp only [BitVec.getLsbD_or, getLsbD_place, BitVec.getLsbD_extractLsb', hk]
  by_cases hlo : lo ≤ k
  · by_cases hhi : lo + m ≤ k
    · have hlow : ¬k - lo < m := by omega
      have hspan : k - lo < m + n ↔ k - (lo + m) < n := by omega
      simp [hlo, hhi, hlow, hspan]
    · have hlow : k - lo < m := by omega
      have hspan : k - lo < m + n := by omega
      simp [hlo, hhi, hlow, hspan]
  · have hhi : ¬lo + m ≤ k := by omega
    simp [hlo, hhi]

/-- The field that spans the whole word, placed back, is the word. -/
theorem place_extractLsb'_whole (w : UWord) : place (w.extractLsb' 0 32) 0 = w := by
  simp [place]

/-! ## Both directions of rule R42 -/

/-- Each field is read back from its own place, and the twelve others are 0 there. -/
theorem unpack_pack (f : Fields) : unpack (pack f) = f := by
  simp (disch := omega) only [unpack, pack, BitVec.extractLsb'_or, extractLsb'_place_same,
    extractLsb'_place_disjoint, BitVec.or_zero, BitVec.zero_or]

/-- The thirteen fields of a word are adjacent from bit 31 down to bit 0: joined one by one from the
top, they are the whole word. -/
theorem pack_unpack (w : UWord) : pack (unpack w) = w := by
  simp (disch := rfl) only [pack, unpack, place_extractLsb'_or_adjacent, Nat.reduceAdd,
    place_extractLsb'_whole]

/-- Settles O1: fields do not overlap (`unpack_pack`), and they leave no bit out (`pack_unpack`). -/
theorem fieldsPackAndUnpackExactly : Obligations.FieldsPackAndUnpackExactly :=
  ⟨unpack_pack, pack_unpack⟩

end Sys2Proof.Proofs
end

