-- ==== Sys2Proof/Proofs/AluAndShifter.lean ====
section
/-! PROOFS. Subcycles 1 to 3 of a cycle in closed form, what the rows of subcycle 4 leave alone, and
from these the ALU and the shifter of every cycle (rules R59 to R63, R65 to R67). -/

namespace Sys2Proof.Proofs

open Sys2Proof.Machine Sys2Proof.Safety Sys2Proof.Laws

/-! ## The values the ALU and the shifter compute -/

@[simp] theorem toNat_aluSum (a b : Word) : (aluSum a b).toNat = (a.toNat + b.toNat) % 2 ^ 16 := by
  simp [aluSum]

@[simp] theorem toNat_aluCompl (a : Word) : (aluCompl a).toNat = 2 ^ 16 - 1 - a.toNat := by
  have fits : 2 ^ 16 - 1 - a.toNat < 2 ^ 16 := by omega
  rw [aluCompl, BitVec.toNat_ofNat, Nat.mod_eq_of_lt fits]

@[simp] theorem toNat_shiftRight1 (x : Word) : (shiftRight1 x).toNat = x.toNat / 2 := by
  have fits : x.toNat / 2 < 2 ^ 16 := by omega
  rw [shiftRight1, BitVec.toNat_ofNat, Nat.mod_eq_of_lt fits]

@[simp] theorem toNat_shiftLeft1 (x : Word) : (shiftLeft1 x).toNat = x.toNat * 2 % 2 ^ 16 := by
  simp [shiftLeft1]

theorem zFlag_eq_true_iff (r : Word) : zFlag r = true ↔ r = 0 := by
  simp [zFlag]

theorem nFlag_eq_true_iff (r : Word) : nFlag r = true ↔ r ≠ 0 ∧ r.getLsbD 15 = true := by
  simp [nFlag, zFlag, signBit]

/-! ## Subcycles 1 to 3: the rows and the fields they follow -/

/-- The ALU's function by the value of its field (rules R60 to R63). -/
def aluOf (op : BitVec 2) (a b : Word) : Word :=
  if op = 0b00#2 then aluSum a b
  else if op = 0b01#2 then aluConj a b
  else if op = 0b10#2 then aluPass a
  else aluCompl a

/-- SHOUT by the value of SH, from the value it had and the ALU's output (rules R65 to R68). -/
def shoutOf (op : BitVec 2) (old x : Word) : Word :=
  if op = 0b00#2 then x
  else if op = 0b01#2 then shiftRight1 x
  else if op = 0b10#2 then shiftLeft1 x
  else old

/-- What the shifter reports by the value of SH (rule R68). -/
def shiftReports (op : BitVec 2) : List Event :=
  if op = 0b11#2 then [ErrorKind.undefinedShiftOp.event] else []

/-- This cycle's ALU result (rules R53, R69, R70). -/
def aluResultOf (f : Fields) (s : State) : Word := aluOf f.alu (inputA f s) (inputB f s)

/-- The state after subcycles 1 to 3 of a cycle with the fields `f` (rules R51 to R53). -/
def computed (f : Fields) (s : State) : State :=
  { s with
    mar := addressAtCommit f s
    lat := ⟨inputA f s, inputB f s, aluResultOf f s⟩
    z := zFlag (aluResultOf f s)
    n := nFlag (aluResultOf f s)
    shout := shoutOf f.sh s.shout (aluResultOf f s)
    events := s.events ++ shiftReports f.sh }

/-- Every value of a two-bit field. -/
theorem two_bit_cases (x : BitVec 2) : x = 0b00#2 ∨ x = 0b01#2 ∨ x = 0b10#2 ∨ x = 0b11#2 := by
  revert x; decide

theorem exec_decodeAmux (f : Fields) (s : State) :
    exec (decodeAmux f) s = .next (s.routeA (inputA f s)) := by
  by_cases h : f.amux = 1
  · rw [decodeAmux, inputA, if_pos h, if_pos h]; rfl
  · rw [decodeAmux, inputA, if_neg h, if_neg h]; rfl

theorem runRows_decodeMar (f : Fields) (l : Microinstruction) (s : State) (hs : s.fault = none) :
    runRows (decodeMar f ++ l) s = runRows l (s.setMar (addressAtCommit f s)) := by
  by_cases h : f.mar = 1
  · rw [decodeMar, addressAtCommit, if_pos h, if_pos h]
    exact runRows_cons rfl hs
  · rw [decodeMar, addressAtCommit, if_neg h, if_neg h]
    rfl

theorem exec_decodeAlu (f : Fields) (s : State) :
    exec (decodeAlu f) s =
      .next ((s.routeB (Reg.ofIndex f.b)).aluResult (aluOf f.alu s.lat.aluA (inputB f s))) := by
  rcases two_bit_cases f.alu with h | h | h | h <;> rw [decodeAlu, h] <;> rfl

theorem exec_decodeSh (f : Fields) (s : State) :
    exec (decodeSh f) s =
      .next { s with shout := shoutOf f.sh s.shout s.lat.aluOut,
                     events := s.events ++ shiftReports f.sh } := by
  rcases two_bit_cases f.sh with h | h | h | h <;> rw [decodeSh, h] <;>
    simp [exec, execShPass, execShSrl1, execShSll1, execShUndef, State.setShout, State.emit,
      shoutOf, shiftReports]

/-- The rows of subcycle 4, in its order: the port, LD_MBR, ENC and the branch (rule R54). -/
def subcycle4Rows (f : Fields) : Microinstruction :=
  decodeMem f :: (decodeMbr f ++ (decodeEnc f ++ [decodeCond f]))

/-- Subcycles 1 to 3 record no fatal error, so every word gets to subcycle 4. -/
theorem runRows_rows (f : Fields) (s : State) (hs : s.fault = none) :
    runRows f.rows s = runRows (subcycle4Rows f) (computed f s) := by
  have rows : f.rows =
      decodeAmux f :: (decodeMar f ++ decodeAlu f :: decodeSh f :: subcycle4Rows f) := by
    simp [Fields.rows, subcycle4Rows]
  rw [rows, runRows_cons (exec_decodeAmux f _), runRows_decodeMar,
    runRows_cons (exec_decodeAlu f _), runRows_cons (exec_decodeSh f _)]
  · rfl
  all_goals exact hs

/-- A step that fetches `w` is its subcycles 1 to 3 in closed form, then the rows of subcycle 4. -/
theorem step_of_fetches {s : State} {w : UWord} (h : Fetches s w) :
    step s = endCycle (runRows (subcycle4Rows (unpack w)) (computed (unpack w) (s.setMir w))) := by
  rw [← runRows_rows (unpack w) (s.setMir w) h.noFault]
  simp only [step, fullCycle, h.noFault, cycle, State.programWord, h.word, decode]

/-! ## Subcycle 4: what its rows leave alone -/

theorem mem_subcycle4Rows (f : Fields) (i : Instr) :
    i ∈ subcycle4Rows f ↔ i = decodeMem f ∨ (f.mbr = 1 ∧ i = .ldMbr) ∨
      (f.enc = 1 ∧ i = .enc (Reg.ofIndex f.c)) ∨ i = decodeCond f := by
  simp [subcycle4Rows, decodeMbr, decodeEnc]

theorem group_decodeMem (f : Fields) : (decodeMem f).group = .mem := by
  unfold decodeMem
  split <;> split <;> rfl

theorem group_decodeCond (f : Fields) : (decodeCond f).group = .cond := by
  unfold decodeCond
  split <;> rfl

/-- The groups of the rows of subcycle 4; ENC is one of them only where the word sets it. -/
theorem group_of_mem_subcycle4Rows {f : Fields} {i : Instr} (h : i ∈ subcycle4Rows f) :
    i.group = .mem ∨ i.group = .mbr ∨ (f.enc = 1 ∧ i.group = .enc) ∨ i.group = .cond := by
  rcases (mem_subcycle4Rows f i).1 h with rfl | ⟨-, rfl⟩ | ⟨henc, rfl⟩ | rfl
  · exact .inl (group_decodeMem f)
  · exact .inr (.inl rfl)
  · exact .inr (.inr (.inl ⟨henc, rfl⟩))
  · exact .inr (.inr (.inr (group_decodeCond f)))

/-- What every row of a list keeps, running the list keeps. -/
theorem runRows_preserves {P : State → Prop} {l : Microinstruction} {s t : State}
    (row : ∀ i ∈ l, ∀ u v, exec i u = .next v → P u → P v) (run : runRows l s = .next t)
    (hs : P s) : P t := by
  induction l generalizing s with
  | nil => cases run; exact hs
  | cons i rest ih =>
    obtain ⟨u, hu⟩ := exec_next i s
    have hPu : P u := row i (by simp) s u hu hs
    cases hf : u.fault with
    | none =>
      rw [runRows_cons hu hf] at run
      exact ih (fun j hj => row j (by simp [hj])) run hPu
    | some k =>
      rw [runRows_stops hu hf] at run
      cases run
      exact hPu

/-! ### The port writes no flag, no shifter output and no event -/

section Port

variable (s : State) (op : MemOp)

@[simp] theorem request_z : (s.request op).z = s.z := by rw [request_frame]
@[simp] theorem request_n : (s.request op).n = s.n := by rw [request_frame]
@[simp] theorem request_shout : (s.request op).shout = s.shout := by rw [request_frame]
@[simp] theorem request_events : (s.request op).events = s.events := by rw [request_frame]

end Port

/-- Two states with the same flags and the same SHOUT: what the ALU and the shifter put out. -/
structure SameAluOutputs (s t : State) : Prop where
  z : t.z = s.z
  n : t.n = s.n
  shout : t.shout = s.shout

/-- Only an ALU row writes the flags, and only a shifter row SHOUT (rules R59, R64). -/
theorem exec_sameAluOutputs {i : Instr} {s t : State} (h : exec i s = .next t)
    (halu : i.group ≠ .alu) (hsh : i.group ≠ .sh) : SameAluOutputs s t := by
  cases i <;> cases h
  case aluAdd | aluAnd | aluPassA | aluNotA => exact absurd rfl halu
  case shPass | shSrl1 | shSll1 | shUndef => exact absurd rfl hsh
  all_goals constructor <;> simp

/-- Only a shifter row and ENC report a non-fatal error (rules R68, R73). -/
theorem exec_events {i : Instr} {s t : State} (h : exec i s = .next t)
    (hsh : i.group ≠ .sh) (henc : i.group ≠ .enc) : t.events = s.events := by
  cases i <;> cases h
  case shPass | shSrl1 | shSll1 | shUndef => exact absurd rfl hsh
  case enc => exact absurd rfl henc
  all_goals simp

/-- Subcycle 4 leaves the flags and SHOUT of subcycles 2 and 3, in a conflicting word too. -/
theorem subcycle4_sameAluOutputs {f : Fields} {s t : State}
    (run : runRows (subcycle4Rows f) s = .next t) : SameAluOutputs s t := by
  refine runRows_preserves (P := SameAluOutputs s) (fun i hi u v huv hu => ?_) run ⟨rfl, rfl, rfl⟩
  have same : SameAluOutputs u v := by
    apply exec_sameAluOutputs huv <;>
      rcases group_of_mem_subcycle4Rows hi with h | h | ⟨-, h⟩ | h <;> simp [h]
  exact ⟨same.z.trans hu.z, same.n.trans hu.n, same.shout.trans hu.shout⟩

/-- Without ENC, subcycle 4 reports no non-fatal error. -/
theorem subcycle4_events {f : Fields} {s t : State} (run : runRows (subcycle4Rows f) s = .next t)
    (henc : f.enc = 0) : t.events = s.events := by
  refine runRows_preserves (P := fun u => u.events = s.events) (fun i hi u v huv hu => ?_) run rfl
  have same : v.events = u.events := by
    apply exec_events huv <;>
      rcases group_of_mem_subcycle4Rows hi with h | h | ⟨h1, h⟩ | h <;> simp_all
  exact same.trans hu

/-! ## The ALU and the shifter of every cycle -/

/-- A cycle that fetches a word completes, with the flags and SHOUT of its subcycles 2 and 3;
without ENC its only event is the shifter's. -/
theorem step_aluOutputs {s : State} {w : UWord} (h : Fetches s w) :
    ∃ t, step s = .next t ∧ SameAluOutputs (computed (unpack w) s) t ∧
      ((unpack w).enc = 0 → t.events = s.events ++ shiftReports (unpack w).sh) := by
  obtain ⟨t, run⟩ := runRows_next (subcycle4Rows (unpack w)) (computed (unpack w) (s.setMir w))
  have ⟨hz, hn, hshout⟩ := subcycle4_sameAluOutputs run
  exact ⟨t.clearLatches, by rw [step_of_fetches h, run, endCycle], ⟨hz, hn, hshout⟩,
    subcycle4_events run⟩

/-- Settles O21: `r` is `aluResultOf`, which the ALU field selects; the cycle ends with its flags
and with the SHOUT that the SH field makes of it (`step_aluOutputs`). -/
theorem aluAndShifterOfEveryCycle : Obligations.AluAndShifterOfEveryCycle := by
  intro s w hw f
  obtain ⟨t, hstep, ⟨hz, hn, hshout⟩, hevents⟩ := step_aluOutputs hw
  refine ⟨t, aluResultOf f s, hstep, ?add, ?conj, ?passA, ?notA, ?z, ?n, ?pass, ?srl, ?sll, ?events⟩
  case add | conj | passA | notA => intro op; simp [aluResultOf, aluOf, op, aluConj, aluPass]
  case z => rw [hz]; exact zFlag_eq_true_iff _
  case n => rw [hn]; exact nFlag_eq_true_iff _
  case pass | srl | sll => intro op; simp [hshout, computed, shoutOf, f, op]
  case events => intro op henc; simp [hevents henc, shiftReports, f, op]

end Sys2Proof.Proofs
end

