-- ==== Sys2Proof/Proofs/MemoryPort.lean ====
section
/-! PROOFS. The memory port's request field by field, subcycle 4 of a cycle that is no conflict in
closed form, and from these the port of every such cycle (rules R54, R74, R75, R77 to R81). -/

namespace Sys2Proof.Proofs

open Sys2Proof.Machine Sys2Proof.Safety Sys2Proof.Laws

/-- A Write stores the whole word that a Read of the same address delivers (rule R35). -/
theorem read_write_same (m : Memory) (a v : Word) : (m.write a v).read a = v := by
  simp only [Memory.read, Memory.write, lookup_insert_same]

/-! ## The port's request, field by field -/

section Request

variable (s : State) (op : MemOp)

/-- Rule R78's condition, on the handshake that rules R75 and R77 have just shifted and set. -/
theorem commits_shift_set : (s.hs.shift.set op).commits = commitsNow s op := rfl

@[simp] theorem request_fault : (s.request op).fault = s.fault := by rw [request_frame]

/-- A commit leaves the port idle (R81); any other cycle leaves its own request pending (R77). -/
theorem request_hs : (s.request op).hs =
    if commitsNow s op = true then Handshake.idle
    else ⟨s.hs.thisReq, decide (op ≠ .none), s.hs.thisOp, op⟩ := by
  cases h : commitsNow s op <;> rw [← commits_shift_set] at h
  · rw [request_waits s op h]; rfl
  · rw [request_commits s op h]; rfl

/-- Only a committing Read writes MBR (R79). -/
theorem request_mbr : (s.request op).mbr =
    if op = .read ∧ commitsNow s op = true then s.mem.read s.mar else s.mbr := by
  cases h : commitsNow s op <;> rw [← commits_shift_set] at h
  · simp [request_waits s op h]
  · rw [request_commits s op h]; cases op <;> rfl

/-- Only a committing Write writes memory (R80). -/
theorem request_mem : (s.request op).mem =
    if op = .write ∧ commitsNow s op = true then s.mem.write s.mar s.mbr else s.mem := by
  cases h : commitsNow s op <;> rw [← commits_shift_set] at h
  · simp [request_waits s op h]
  · rw [request_commits s op h]; cases op <;> rfl

end Request

/-! ## Subcycle 4 of a cycle that is no conflict -/

/-- What ENC reports (rule R73). -/
def encReports (f : Fields) (s : State) : List Event :=
  if f.enc = 1 then s.bank.reports (Reg.ofIndex f.c) s.shout.toNat else []

/-- The state after subcycle 4 of a word that is no conflict: the port, LD_MBR, ENC and the branch,
from the state after subcycles 1 to 3 (rule R54). -/
def committed (f : Fields) (s : State) : State :=
  { s with
    hs := (s.request (requestOf f)).hs
    mem := (s.request (requestOf f)).mem
    mbr := if f.mbr = 1 then s.shout else (s.request (requestOf f)).mbr
    bank := if f.enc = 1 then s.bank.after (Reg.ofIndex f.c) s.shout.toNat else s.bank
    events := s.events ++ encReports f s
    mpc := nextMpc s.mpc f.cond f.addr s.z s.n }

/-- The MEM row of a word that is no conflict is the request of its RD and WR (rule R74). -/
theorem exec_decodeMem {f : Fields} (hf : ¬isConflict f) (s : State) :
    exec (decodeMem f) s = .next (s.request (requestOf f)) := by
  by_cases hrd : f.rd = 1
  · have hwr : ¬f.wr = 1 := fun hwr => hf ⟨hrd, hwr⟩
    rw [decodeMem, requestOf, if_pos hrd, if_pos hrd, if_neg hwr]; rfl
  · by_cases hwr : f.wr = 1
    · rw [decodeMem, requestOf, if_neg hrd, if_neg hrd, if_pos hwr, if_pos hwr]; rfl
    · rw [decodeMem, requestOf, if_neg hrd, if_neg hrd, if_neg hwr, if_neg hwr]; rfl

theorem runRows_decodeMbr (f : Fields) (l : Microinstruction) (s : State) (hs : s.fault = none) :
    runRows (decodeMbr f ++ l) s = runRows l (s.setMbr (if f.mbr = 1 then s.shout else s.mbr)) := by
  by_cases h : f.mbr = 1
  · rw [decodeMbr, if_pos h, if_pos h]
    exact runRows_cons rfl hs
  · rw [decodeMbr, if_neg h, if_neg h]
    rfl

theorem runRows_decodeEnc (f : Fields) (l : Microinstruction) (s : State) (hs : s.fault = none) :
    runRows (decodeEnc f ++ l) s = runRows l
      { s with bank := if f.enc = 1 then s.bank.after (Reg.ofIndex f.c) s.shout.toNat else s.bank,
               events := s.events ++ encReports f s } := by
  by_cases h : f.enc = 1
  · rw [decodeEnc, encReports, if_pos h, if_pos h, if_pos h]
    exact runRows_cons rfl hs
  · rw [decodeEnc, encReports, if_neg h, if_neg h, if_neg h, List.append_nil]
    rfl

/-- COND_NONE, which gives no target, needs none: with COND 00 rule R83 never takes ADDR. -/
theorem nextMpc_none (mpc : Nat) (addr : BitVec 8) (z n : Bool) :
    nextMpc mpc 0b00#2 addr z n = nextMpc mpc 0b00#2 0 z n := by
  simp [nextMpc]

theorem exec_decodeCond (f : Fields) (s : State) :
    exec (decodeCond f) s = .next (s.branch f.cond f.addr) := by
  rcases two_bit_cases f.cond with h | h | h | h <;> rw [decodeCond, h]
  · rw [State.branch, nextMpc_none]; rfl
  all_goals rfl

/-- The rows of subcycle 4 in closed form, for a word that is no conflict. -/
theorem runRows_subcycle4Rows {f : Fields} (hf : ¬isConflict f) {s : State} (hs : s.fault = none) :
    runRows (subcycle4Rows f) s = .next (committed f s) := by
  have hport : (s.request (requestOf f)).fault = none := by rw [request_fault, hs]
  rw [subcycle4Rows, runRows_cons (exec_decodeMem hf s), runRows_decodeMbr, runRows_decodeEnc,
    runRows_cons (exec_decodeCond f _), runRows, request_frame]
  · rfl
  all_goals exact hport

/-- A cycle that is no conflict, in closed form: subcycles 1 to 3, then subcycle 4. -/
theorem step_of_noConflict {s : State} {w : UWord} (h : Fetches s w)
    (hw : ¬isConflict (unpack w)) :
    step s = .next (committed (unpack w) (computed (unpack w) (s.setMir w))).clearLatches := by
  have hrun := runRows_subcycle4Rows hw (s := computed (unpack w) (s.setMir w)) h.noFault
  rw [step_of_fetches h, hrun, endCycle]

/-! ## The port of every cycle -/

/-- Without LD_MBR, MBR is as the port leaves it. -/
theorem committed_mbr_of_noLoad {f : Fields} (hf : f.mbr = 0) (s : State) :
    (committed f s).mbr = (s.request (requestOf f)).mbr := by
  simp [committed, hf]

/-- The port of a cycle that is no conflict, from the cycle's start: subcycles 1 to 3 change MAR,
but not the handshake, MBR or memory. -/
theorem step_port {s : State} {w : UWord} (h : Fetches s w) (hw : ¬isConflict (unpack w)) :
    let f := unpack w
    let op := requestOf f
    ∃ t, step s = .next t ∧ t.mar = addressAtCommit f s ∧
      t.hs = (if commitsNow s op = true then Handshake.idle
        else ⟨s.hs.thisReq, decide (op ≠ .none), s.hs.thisOp, op⟩) ∧
      t.mem = (if op = .write ∧ commitsNow s op = true
        then s.mem.write (addressAtCommit f s) s.mbr else s.mem) ∧
      (f.mbr = 0 → t.mbr = if op = .read ∧ commitsNow s op = true
        then s.mem.read (addressAtCommit f s) else s.mbr) := by
  intro f op
  let c := computed f (s.setMir w)
  exact ⟨(committed f c).clearLatches, step_of_noConflict h hw, rfl, request_hs c op,
    request_mem c op, fun hload => (committed_mbr_of_noLoad hload c).trans (request_mbr c op)⟩

/-- Settles O25: the clauses are the two cases, commit or not, of each part of `step_port`; a Write
stores the MBR of the cycle's start, and so a read of that address answers it. -/
theorem portOfEveryCycle : Obligations.PortOfEveryCycle := by
  intro s w hw hconflict f op
  obtain ⟨t, hstep, hmar, hhs, hmem, hmbr⟩ := step_port hw hconflict
  refine ⟨t, hstep, ?idle, ?pending, ?read, ?write, ?keepMbr, ?keepMem⟩
  case idle => intro hnow; exact hhs.trans (if_pos hnow)
  case pending => intro hnot; exact hhs.trans (if_neg (ne_true_of_eq_false hnot))
  case read => intro hread hnow hload; rw [hmbr hload, if_pos ⟨hread, hnow⟩, hmar]
  case write => intro hwrite hnow; rw [hmem, if_pos ⟨hwrite, hnow⟩, hmar, read_write_same]
  case keepMbr => intro hnot hload; exact (hmbr hload).trans (if_neg hnot)
  case keepMem => intro hnot; exact hmem.trans (if_neg hnot)

end Sys2Proof.Proofs
end

