-- ==== Sys2Proof/Proofs/Sequencing.lean ====
section
/-! PROOFS. The next MPC: the model's function of COND and the flags is the table of rule R83, and from
it the branch rows by themselves and the next MPC of every cycle that is no conflict (rules R83 to
R87). -/

namespace Sys2Proof.Proofs

open Sys2Proof.Machine Sys2Proof.Safety

/-! ## The table of rule R83 -/

/-- R83's chain of tests is the table, flags by COND; also in the column where Z and N are both set,
which no ALU result gives. -/
theorem nextMpc_eq_referenceNext (mpc : Nat) (cond : BitVec 2) (addr : BitVec 8) (z n : Bool) :
    nextMpc mpc cond addr z n = referenceNext mpc cond addr z n := by
  rcases two_bit_cases cond with rfl | rfl | rfl | rfl <;> cases z <;> cases n <;> rfl

/-- A word is not both 0 and negative (rule R59). -/
theorem not_zFlag_and_nFlag (r : Word) : ¬(zFlag r = true ∧ nFlag r = true) := by
  rintro ⟨hz, hn⟩
  exact ((nFlag_eq_true_iff r).1 hn).1 ((zFlag_eq_true_iff r).1 hz)

/-! ## The branch rows -/

/-- The branch resolution writes MPC, by the table, and nothing else. -/
theorem branch_eq (s : State) (cond : BitVec 2) (addr : BitVec 8) :
    s.branch cond addr = { s with mpc := referenceNext s.mpc cond addr s.z s.n } := by
  rw [State.branch, nextMpc_eq_referenceNext, State.setMpc]

/-- Settles O15: each row is the branch with its own COND (`branch_eq`); the table at that COND is
the row's pseudocode in each of the three columns that the flags can select. -/
theorem branchRowsSetTheNextMpc : Obligations.BranchRowsSetTheNextMpc := by
  intro s addr hflags
  simp only [exec, execCondNone, execCondN, execCondZ, execCondAlways, branch_eq]
  cases hz : s.z <;> cases hn : s.n
  case false.false | false.true | true.false => simp [referenceNext]
  case true.true => exact absurd ⟨hz, hn⟩ hflags

/-! ## The next MPC of every cycle -/

/-- A cycle that is no conflict resolves its branch with the flags of its own ALU result, which are
never both set. -/
theorem step_mpc {s : State} {w : UWord} (h : Fetches s w) (hw : ¬isConflict (unpack w)) :
    ∃ t, step s = .next t ∧
      t.mpc = referenceNext s.mpc (unpack w).cond (unpack w).addr t.z t.n ∧
      ¬(t.z = true ∧ t.n = true) :=
  ⟨_, step_of_noConflict h hw, nextMpc_eq_referenceNext .., not_zFlag_and_nFlag _⟩

/-- Settles O24: the clauses are the columns of the table that `step_mpc` gives. -/
theorem nextMpcFollowsTheTable : Obligations.NextMpcFollowsTheTable := by
  intro s w hw hconflict f
  obtain ⟨t, hstep, hmpc, hflags⟩ := step_mpc hw hconflict
  refine ⟨t, hstep, ?noFlag, ?negative, ?zero, hflags⟩ <;> intro hz hn <;> rw [hz, hn] at hmpc
  case noFlag => exact hmpc
  case negative | zero =>
    constructor <;> rintro (hcond | hcond) <;> simpa [referenceNext, f, hcond] using hmpc

end Sys2Proof.Proofs
end

