-- ==== Sys2Proof/Proofs/RowEncoding.lean ====
section
/-! PROOFS. The rows of a word and the word of a list of rows: the bits each decoder's row encodes
to, the fields that no row uses, and the lists that are the rows of some word (R42, R46, R49). -/

namespace Sys2Proof.Proofs

open Sys2Proof.Machine

/-! ## Register indices (rule R12) -/

theorem index_ofIndex (k : BitVec 4) : (Reg.ofIndex k).index = k := by
  revert k; decide

@[simp] theorem ofIndex_index (r : Reg) : Reg.ofIndex r.index = r := by
  cases r <;> rfl

/-! ## The control bits of the rows a word's fields select

Each decoder's row has its own field as its match, and the operand field it uses as its operand. -/

theorem one_bit_cases (x : BitVec 1) : x = 0 ∨ x = 1 := by
  revert x; decide

section RowsOfFields

variable (f : Fields)

@[simp] theorem rowMatch_decodeAmux : (decodeAmux f).rowMatch = place f.amux 31 := by
  rcases one_bit_cases f.amux with h | h <;> simp only [decodeAmux, h] <;> rfl

theorem operandBits_decodeAmux :
    (decodeAmux f).operandBits = place (if f.amux = 1 then 0 else f.a) 8 := by
  rcases one_bit_cases f.amux with h | h <;>
    simp [decodeAmux, h, Instr.operandBits, index_ofIndex, place]

@[simp] theorem rowMatch_decodeAlu : (decodeAlu f).rowMatch = place f.alu 27 := by
  rcases two_bit_cases f.alu with h | h | h | h <;> rw [decodeAlu, h] <;> rfl

theorem operandBits_decodeAlu : (decodeAlu f).operandBits = place f.b 12 := by
  rcases two_bit_cases f.alu with h | h | h | h <;> rw [decodeAlu, h] <;>
    simp [Instr.operandBits, index_ofIndex]

@[simp] theorem rowMatch_decodeSh : (decodeSh f).rowMatch = place f.sh 25 := by
  rcases two_bit_cases f.sh with h | h | h | h <;> rw [decodeSh, h] <;> rfl

theorem operandBits_decodeSh : (decodeSh f).operandBits = 0 := by
  rcases two_bit_cases f.sh with h | h | h | h <;> rw [decodeSh, h] <;> rfl

@[simp] theorem rowMatch_decodeMem :
    (decodeMem f).rowMatch = place f.rd 22 ||| place f.wr 21 := by
  rcases one_bit_cases f.rd with hr | hr <;> rcases one_bit_cases f.wr with hw | hw <;>
    simp only [decodeMem, hr, hw] <;> rfl

theorem operandBits_decodeMem : (decodeMem f).operandBits = 0 := by
  unfold decodeMem
  split <;> split <;> rfl

@[simp] theorem rowMatch_decodeCond : (decodeCond f).rowMatch = place f.cond 29 := by
  rcases two_bit_cases f.cond with h | h | h | h <;> rw [decodeCond, h] <;> rfl

theorem operandBits_decodeCond :
    (decodeCond f).operandBits = place (if f.cond = 0 then 0 else f.addr) 0 := by
  rcases two_bit_cases f.cond with h | h | h | h <;>
    simp [decodeCond, h, Instr.operandBits, place]

end RowsOfFields

/-! ## Encoding the rows of a word (rules R42, R49) -/

/-- The fields with 0 in each operand field that no row of the word uses: A with AMUX = 1, C with
ENC = 0, ADDR with COND = 00. -/
def usedOnly (f : Fields) : Fields :=
  { f with
    a := if f.amux = 1 then 0 else f.a
    c := if f.enc = 1 then f.c else 0
    addr := if f.cond = 0 then 0 else f.addr }

/-- The decoder does not look at the fields that no row uses. -/
theorem rows_usedOnly (f : Fields) : (usedOnly f).rows = f.rows := by
  have hamux : decodeAmux (usedOnly f) = decodeAmux f := by
    simp only [decodeAmux, usedOnly]
    split <;> rfl
  have henc : decodeEnc (usedOnly f) = decodeEnc f := by
    simp only [decodeEnc, usedOnly]
    split <;> rfl
  have hcond : decodeCond (usedOnly f) = decodeCond f := by
    rcases two_bit_cases f.cond with h | h | h | h <;> simp [decodeCond, usedOnly, h]
  rw [Fields.rows, hamux, henc, hcond]
  rfl

theorem encode_cons (i : Instr) (l : Microinstruction) :
    encode (i :: l) = encodeRow i ||| encode l := rfl

theorem encode_append (l l' : Microinstruction) : encode (l ++ l') = encode l ||| encode l' := by
  induction l with
  | nil => exact (BitVec.zero_or).symm
  | cons i l ih => rw [List.cons_append, encode_cons, encode_cons, ih, BitVec.or_assoc]

theorem place_zero {n : Nat} (lo : Nat) : place (0 : BitVec n) lo = 0 := by
  simp [place]

theorem encode_decodeMar (f : Fields) :
    encode (decodeMar f) = place f.mar 23 ||| place (if f.mar = 1 then f.b else 0) 12 := by
  rcases one_bit_cases f.mar with h | h <;>
    simp [decodeMar, h, encode, encodeRow, Instr.rowMatch, Instr.operandBits, index_ofIndex, place]

theorem encode_decodeMbr (f : Fields) : encode (decodeMbr f) = place f.mbr 24 := by
  rcases one_bit_cases f.mbr with h | h <;> simp only [decodeMbr, h] <;> rfl

theorem encode_decodeEnc (f : Fields) :
    encode (decodeEnc f) = place f.enc 20 ||| place (if f.enc = 1 then f.c else 0) 16 := by
  rcases one_bit_cases f.enc with h | h <;>
    simp [decodeEnc, h, encode, encodeRow, Instr.rowMatch, Instr.operandBits, index_ofIndex, place]

/-- The word of the rows that fields decode to has those fields, but for the unused ones: LD_MAR's
bus B is the field B of the ALU row, so it adds no bit. -/
theorem encode_rows (f : Fields) : encode f.rows = pack (usedOnly f) := by
  simp only [Fields.rows, encode_append, encode_decodeMar, encode_decodeMbr, encode_decodeEnc]
  simp only [encode, List.foldr_cons, List.foldr_nil, BitVec.ofNat_eq_ofNat, BitVec.or_zero,
    encodeRow, rowMatch_decodeAmux, rowMatch_decodeAlu, rowMatch_decodeSh, rowMatch_decodeMem,
    rowMatch_decodeCond, operandBits_decodeAmux, operandBits_decodeAlu, operandBits_decodeSh,
    operandBits_decodeMem, operandBits_decodeCond, pack, usedOnly]
  have hb : place (if f.mar = 1 then f.b else 0) 12 = 0#32 ∨
      place (if f.mar = 1 then f.b else 0) 12 = place f.b 12 := by
    split
    · exact .inr rfl
    · exact .inl (place_zero 12)
  generalize place (if f.mar = 1 then f.b else 0) 12 = busB at hb ⊢
  generalize place f.amux 31 = amux, place f.cond 29 = cond, place f.alu 27 = alu,
    place f.sh 25 = sh, place f.mbr 24 = mbr, place f.mar 23 = mar, place f.rd 22 = rd,
    place f.wr 21 = wr, place f.enc 20 = enc, place f.b 12 = b at hb ⊢
  generalize place _ 16 = c, place _ 8 = a, place _ 0 = addr
  rcases hb with rfl | rfl
  · rw [BitVec.or_zero]
    ac_rfl
  · ac_rfl

/-! ## The rows of a word are one of each group (rules R46, R47) -/

@[simp] theorem group_ldMar (b : Reg) : (Instr.ldMar b).group = .mar := rfl
@[simp] theorem group_ldMbr : Instr.ldMbr.group = .mbr := rfl
@[simp] theorem group_enc (c : Reg) : (Instr.enc c).group = .enc := rfl

/-- Every row that reads bus B reads the same register (rule R16). -/
theorem oneBusB_iff (l : Microinstruction) : oneBusB l = true ↔
    ∀ i ∈ l, ∀ j ∈ l, ∀ b c, i.busB = some b → j.busB = some c → b = c := by
  have hmem : ∀ b, b ∈ l.filterMap Instr.busB ↔ ∃ i ∈ l, i.busB = some b := by simp
  unfold oneBusB
  split
  case h_1 hnil =>
    refine iff_of_true rfl fun i hi _ _ b _ hb _ => ?_
    have := (hmem b).2 ⟨i, hi, hb⟩
    simp [hnil] at this
  case h_2 b₀ rest hcons =>
    simp only [hcons, List.mem_cons] at hmem
    simp only [List.all_eq_true, decide_eq_true_eq]
    constructor
    · intro hall i hi j hj b c hb hc
      have heq : ∀ d, (∃ k ∈ l, k.busB = some d) → d = b₀ := fun d hd =>
        ((hmem d).2 hd).elim id (hall d)
      exact (heq b ⟨i, hi, hb⟩).trans (heq c ⟨j, hj, hc⟩).symm
    · intro hone b hb
      obtain ⟨i, hi, hib⟩ := (hmem b).1 (.inr hb)
      obtain ⟨j, hj, hjb⟩ := (hmem b₀).1 (.inl rfl)
      exact hone i hi j hj b b₀ hib hjb

section RowsWellFormed

variable (f : Fields)

@[simp] theorem group_decodeAmux : (decodeAmux f).group = .amux := by
  unfold decodeAmux
  split <;> rfl

@[simp] theorem group_decodeAlu : (decodeAlu f).group = .alu := by
  unfold decodeAlu
  split <;> rfl

@[simp] theorem group_decodeSh : (decodeSh f).group = .sh := by
  unfold decodeSh
  split <;> rfl

theorem busB_decodeAlu : (decodeAlu f).busB = some (Reg.ofIndex f.b) := by
  unfold decodeAlu
  split <;> rfl

/-- Only the MAR and the ALU group read bus B. -/
theorem busB_eq_none {i : Instr} (hmar : i.group ≠ .mar) (halu : i.group ≠ .alu) :
    i.busB = none := by
  cases i
  case ldMar => exact absurd rfl hmar
  case aluAdd | aluAnd | aluPassA | aluNotA => exact absurd rfl halu
  all_goals rfl

theorem mem_rows (i : Instr) :
    i ∈ f.rows ↔ i = decodeAmux f ∨ (f.mar = 1 ∧ i = .ldMar (Reg.ofIndex f.b)) ∨ i = decodeAlu f ∨
      i = decodeSh f ∨ i ∈ subcycle4Rows f := by
  simp [Fields.rows, decodeMar, subcycle4Rows]

theorem inCycleOrder_rows : inCycleOrder f.rows = true := by
  rcases one_bit_cases f.mar with hmar | hmar <;> rcases one_bit_cases f.mbr with hmbr | hmbr <;>
    rcases one_bit_cases f.enc with henc | henc <;>
    simp [Fields.rows, decodeMar, decodeMbr, decodeEnc, hmar, hmbr, henc, inCycleOrder,
      group_decodeMem, group_decodeCond, Group.place]

theorem hasMandatoryGroups_rows : hasMandatoryGroups f.rows = true := by
  simp [hasMandatoryGroups, mandatoryGroups, Fields.rows, group_decodeMem, group_decodeCond]

/-- Every row of a word that reads bus B reads field B. -/
theorem busB_of_mem_rows {i : Instr} {b : Reg} (hi : i ∈ f.rows) (hb : i.busB = some b) :
    b = Reg.ofIndex f.b := by
  rcases (mem_rows f i).1 hi with rfl | ⟨-, rfl⟩ | rfl | rfl | hi
  · simp [busB_eq_none] at hb
  · exact (Option.some.inj hb).symm
  · exact Option.some.inj (hb.symm.trans (busB_decodeAlu f))
  · simp [busB_eq_none] at hb
  · rcases group_of_mem_subcycle4Rows hi with h | h | ⟨-, h⟩ | h <;>
      simp [busB_eq_none, h] at hb

theorem wellFormed_rows : WellFormed f.rows = true := by
  have hb : oneBusB f.rows = true := (oneBusB_iff _).2 fun i hi j hj b c hb hc =>
    (busB_of_mem_rows f hi hb).trans (busB_of_mem_rows f hj hc).symm
  simp [WellFormed, inCycleOrder_rows, hasMandatoryGroups_rows, hb]

end RowsWellFormed

/-- Settles O3: the rows of any fields are well formed, and a 32-bit value is in range. -/
theorem everyWordDecodesWellFormed : Obligations.EveryWordDecodesWellFormed := by
  intro w
  refine ⟨wellFormed_rows (unpack w), ?_⟩
  have hw : ¬2 ^ 32 ≤ w.toNat := Nat.not_le.2 w.isLt
  rw [decodeBits, if_neg (not_not_intro rfl), if_neg hw, BitVec.ofNat_toNat, BitVec.setWidth_eq]

/-! ## Every well-formed list is the rows of some fields -/

/-- What is left of a well-formed list from the place `k` of the cycle on. -/
structure RowsFrom (k : Nat) (l : Microinstruction) : Prop where
  rising : l.Pairwise (fun i j => i.group.place < j.group.place)
  atLeast : ∀ i ∈ l, k ≤ i.group.place
  mandatory : ∀ g ∈ mandatoryGroups, k ≤ g.place → ∃ i ∈ l, i.group = g

theorem pairwise_of_inCycleOrder {l : Microinstruction} (h : inCycleOrder l = true) :
    l.Pairwise (fun i j => i.group.place < j.group.place) := by
  have : IsTrans Instr (fun i j => i.group.place < j.group.place) := ⟨fun _ _ _ => Nat.lt_trans⟩
  rw [← List.isChain_iff_pairwise]
  induction l with
  | nil => exact .nil
  | cons i l ih =>
    cases l with
    | nil => exact .singleton i
    | cons j l =>
      simp only [inCycleOrder, Bool.and_eq_true, decide_eq_true_eq] at h
      exact .cons_cons h.1 (ih h.2)

theorem rowsFrom_of_wellFormed {l : Microinstruction} (h : WellFormed l = true) :
    RowsFrom 0 l := by
  simp only [WellFormed, Bool.and_eq_true] at h
  obtain ⟨⟨horder, hgroups⟩, -⟩ := h
  refine ⟨pairwise_of_inCycleOrder horder, fun _ _ => Nat.zero_le _, fun g hg _ => ?_⟩
  simpa using List.all_eq_true.1 hgroups g hg

theorem groupPlace_injective : Function.Injective Group.place := by
  intro g h heq
  cases g <;> cases h <;> simp [Group.place] at heq ⊢

/-- The first of the rows that are left: the row of the group `g`, or none where `g` may have
none. -/
theorem RowsFrom.split (g : Group) {l : Microinstruction} (h : RowsFrom g.place l) :
    ∃ o rest, l = o ++ rest ∧ RowsFrom (g.place + 1) rest ∧
      ((o = [] ∧ g ∉ mandatoryGroups) ∨ ∃ i, o = [i] ∧ i.group = g) := by
  obtain ⟨hrise, hleast, hmand⟩ := h
  by_cases hg : ∃ i ∈ l, i.group = g
  · obtain ⟨i, rest, rfl⟩ : ∃ i rest, l = i :: rest := by
      obtain ⟨i, hi, -⟩ := hg
      exact List.exists_cons_of_ne_nil (List.ne_nil_of_mem hi)
    obtain ⟨hlt, hrest⟩ := List.pairwise_cons.1 hrise
    have hi : i.group = g := by
      obtain ⟨j, hj, rfl⟩ := hg
      rcases List.mem_cons.1 hj with rfl | hj
      · rfl
      · exact absurd (hleast i (by simp)) (Nat.not_le.2 (hlt j hj))
    refine ⟨[i], rest, rfl, ⟨hrest, fun j hj => hi ▸ hlt j hj, fun g' hg' hk => ?_⟩,
      .inr ⟨i, rfl, hi⟩⟩
    obtain ⟨j, hj, rfl⟩ := hmand g' hg' (by omega)
    rcases List.mem_cons.1 hj with rfl | hj
    · rw [hi] at hk
      omega
    · exact ⟨j, hj, rfl⟩
  · refine ⟨[], l, rfl, ⟨hrise, fun i hi => ?_, fun g' hg' hk => hmand g' hg' (by omega)⟩,
      .inl ⟨rfl, fun hmem => hg (hmand g hmem le_rfl)⟩⟩
    have hne : g.place ≠ i.group.place := fun heq => hg ⟨i, hi, (groupPlace_injective heq).symm⟩
    have := hleast i hi
    omega

theorem RowsFrom.split_mandatory (g : Group) {l : Microinstruction} (h : RowsFrom g.place l)
    (hg : g ∈ mandatoryGroups) :
    ∃ i rest, l = i :: rest ∧ RowsFrom (g.place + 1) rest ∧ i.group = g := by
  obtain ⟨o, rest, rfl, hrest, ⟨-, hno⟩ | ⟨i, rfl, hi⟩⟩ := h.split g
  · exact absurd hg hno
  · exact ⟨i, rest, rfl, hrest, hi⟩

/-- The rows of one group, at most one. -/
abbrev AtMostOne (g : Group) (o : Microinstruction) : Prop := o = [] ∨ ∃ i, o = [i] ∧ i.group = g

theorem RowsFrom.split_optional (g : Group) {l : Microinstruction} (h : RowsFrom g.place l) :
    ∃ o rest, l = o ++ rest ∧ RowsFrom (g.place + 1) rest ∧ AtMostOne g o := by
  obtain ⟨o, rest, hl, hrest, ho⟩ := h.split g
  exact ⟨o, rest, hl, hrest, ho.imp_left And.left⟩

/-- COND is the last group of the cycle. -/
theorem RowsFrom.eq_nil {l : Microinstruction} (h : RowsFrom (Group.cond.place + 1) l) :
    l = [] := by
  refine List.eq_nil_iff_forall_not_mem.2 fun i hi => ?_
  have := h.atLeast i hi
  cases hg : i.group <;> simp [hg, Group.place] at this

/-! Each group's part of a well-formed list is what some value of the group's fields decodes to. -/

theorem exists_decodeAmux {i : Instr} (h : i.group = .amux) :
    ∃ x a, ∀ f : Fields, f.amux = x → f.a = a → decodeAmux f = i := by
  cases i <;> cases h
  case amuxA a => exact ⟨0, a.index, fun f hx ha => by simp [decodeAmux, hx, ha]⟩
  case amuxMbr => exact ⟨1, 0, fun f hx _ => by simp [decodeAmux, hx]⟩

theorem exists_decodeAlu {i : Instr} (h : i.group = .alu) :
    ∃ x b, i.busB = some b ∧ ∀ f : Fields, f.alu = x → f.b = b.index → decodeAlu f = i := by
  cases i <;> cases h
  case aluAdd b => exact ⟨0, b, rfl, fun f hx hb => by simp [decodeAlu, hx, hb]⟩
  case aluAnd b => exact ⟨1, b, rfl, fun f hx hb => by simp [decodeAlu, hx, hb]⟩
  case aluPassA b => exact ⟨2, b, rfl, fun f hx hb => by simp [decodeAlu, hx, hb]⟩
  case aluNotA b => exact ⟨3, b, rfl, fun f hx hb => by simp [decodeAlu, hx, hb]⟩

theorem exists_decodeSh {i : Instr} (h : i.group = .sh) :
    ∃ x, ∀ f : Fields, f.sh = x → decodeSh f = i := by
  cases i <;> cases h
  case shPass => exact ⟨0, fun f hx => by simp [decodeSh, hx]⟩
  case shSrl1 => exact ⟨1, fun f hx => by simp [decodeSh, hx]⟩
  case shSll1 => exact ⟨2, fun f hx => by simp [decodeSh, hx]⟩
  case shUndef => exact ⟨3, fun f hx => by simp [decodeSh, hx]⟩

theorem exists_decodeMem {i : Instr} (h : i.group = .mem) :
    ∃ x y, ∀ f : Fields, f.rd = x → f.wr = y → decodeMem f = i := by
  cases i <;> cases h
  case memNone => exact ⟨0, 0, fun f hx hy => by simp [decodeMem, hx, hy]⟩
  case memRd => exact ⟨1, 0, fun f hx hy => by simp [decodeMem, hx, hy]⟩
  case memWr => exact ⟨0, 1, fun f hx hy => by simp [decodeMem, hx, hy]⟩
  case memConflict => exact ⟨1, 1, fun f hx hy => by simp [decodeMem, hx, hy]⟩

theorem exists_decodeCond {i : Instr} (h : i.group = .cond) :
    ∃ x addr, ∀ f : Fields, f.cond = x → f.addr = addr → decodeCond f = i := by
  cases i <;> cases h
  case condNone => exact ⟨0, 0, fun f hx _ => by simp [decodeCond, hx]⟩
  case condN addr => exact ⟨1, addr, fun f hx ha => by simp [decodeCond, hx, ha]⟩
  case condZ addr => exact ⟨2, addr, fun f hx ha => by simp [decodeCond, hx, ha]⟩
  case condAlways addr => exact ⟨3, addr, fun f hx ha => by simp [decodeCond, hx, ha]⟩

theorem exists_decodeMar {o : Microinstruction} {b : Reg} (h : AtMostOne .mar o)
    (hb : ∀ i ∈ o, ∀ b', i.busB = some b' → b' = b) :
    ∃ x, ∀ f : Fields, f.mar = x → f.b = b.index → decodeMar f = o := by
  rcases h with rfl | ⟨i, rfl, hi⟩
  · exact ⟨0, fun f hx _ => by simp [decodeMar, hx]⟩
  · cases i <;> cases hi
    next b' =>
      obtain rfl : b' = b := hb _ (List.mem_singleton_self _) b' rfl
      exact ⟨1, fun f hx hb => by simp [decodeMar, hx, hb]⟩

theorem exists_decodeMbr {o : Microinstruction} (h : AtMostOne .mbr o) :
    ∃ x, ∀ f : Fields, f.mbr = x → decodeMbr f = o := by
  rcases h with rfl | ⟨i, rfl, hi⟩
  · exact ⟨0, fun f hx => by simp [decodeMbr, hx]⟩
  · cases i <;> cases hi
    exact ⟨1, fun f hx => by simp [decodeMbr, hx]⟩

theorem exists_decodeEnc {o : Microinstruction} (h : AtMostOne .enc o) :
    ∃ x c, ∀ f : Fields, f.enc = x → f.c = c → decodeEnc f = o := by
  rcases h with rfl | ⟨i, rfl, hi⟩
  · exact ⟨0, 0, fun f hx _ => by simp [decodeEnc, hx]⟩
  · cases i <;> cases hi
    next c => exact ⟨1, c.index, fun f hx hc => by simp [decodeEnc, hx, hc]⟩

/-- A well-formed list is the rows of some fields: group by group, in cycle order. -/
theorem exists_rows_of_wellFormed {l : Microinstruction} (h : WellFormed l = true) :
    ∃ f : Fields, f.rows = l := by
  have hone : oneBusB l = true := by
    simp only [WellFormed, Bool.and_eq_true] at h
    exact h.2
  obtain ⟨a, l, rfl, h, ha⟩ := RowsFrom.split_mandatory .amux (rowsFrom_of_wellFormed h) (by decide)
  obtain ⟨m, l, rfl, h, hm⟩ := RowsFrom.split_optional .mar h
  obtain ⟨u, l, rfl, h, hu⟩ := RowsFrom.split_mandatory .alu h (by decide)
  obtain ⟨s, l, rfl, h, hs⟩ := RowsFrom.split_mandatory .sh h (by decide)
  obtain ⟨p, l, rfl, h, hp⟩ := RowsFrom.split_mandatory .mem h (by decide)
  obtain ⟨d, l, rfl, h, hd⟩ := RowsFrom.split_optional .mbr h
  obtain ⟨e, l, rfl, h, he⟩ := RowsFrom.split_optional .enc h
  obtain ⟨c, l, rfl, h, hc⟩ := RowsFrom.split_mandatory .cond h (by decide)
  obtain rfl := h.eq_nil
  obtain ⟨amux, fa, hamux⟩ := exists_decodeAmux ha
  obtain ⟨alu, b, hub, halu⟩ := exists_decodeAlu hu
  have hmb : ∀ i ∈ m, ∀ b', i.busB = some b' → b' = b := fun i hi b' hb' =>
    (oneBusB_iff _).1 hone i (by simp [hi]) u (by simp) b' b hb' hub
  obtain ⟨mar, hmar⟩ := exists_decodeMar hm hmb
  obtain ⟨sh, hsh⟩ := exists_decodeSh hs
  obtain ⟨rd, wr, hmem⟩ := exists_decodeMem hp
  obtain ⟨mbr, hmbr⟩ := exists_decodeMbr hd
  obtain ⟨enc, fc, henc⟩ := exists_decodeEnc he
  obtain ⟨cond, addr, hcond⟩ := exists_decodeCond hc
  refine ⟨⟨amux, cond, alu, sh, mbr, mar, rd, wr, enc, fc, b.index, fa, addr⟩, ?_⟩
  rw [Fields.rows, hamux _ rfl rfl, hmar _ rfl rfl, halu _ rfl rfl, hsh _ rfl, hmem _ rfl rfl,
    hmbr _ rfl, henc _ rfl rfl, hcond _ rfl rfl]
  simp

/-- Settles O2: a well-formed list is the rows of some fields, its word has those fields but for the
unused ones (`encode_rows`), and the decoder reads them back and ignores the unused ones. -/
theorem decodeOfEncodeIsTheMicroinstruction :
    Obligations.DecodeOfEncodeIsTheMicroinstruction := by
  intro l hl
  obtain ⟨f, rfl⟩ := exists_rows_of_wellFormed hl
  rw [encode_rows, decode, unpack_pack, rows_usedOnly]

end Sys2Proof.Proofs
end

