-- ==== Sys2Proof/Proofs/Decoding.lean ====
section
/-! PROOFS. The decoder against the opcode table's masks and matches, the bits it drops, and the
host's questions about a word (rules R46 to R48, spec/opcode_table.json). -/

namespace Sys2Proof.Proofs

open Sys2Proof.Machine

/-! ## Masks and matches (spec/opcode_table.json) -/

/-- The mask of all rows of a group. -/
def groupMask : Group → UWord
  | .amux => 0x80000000
  | .mar => 0x00800000
  | .alu => 0x18000000
  | .sh => 0x06000000
  | .mem => 0x00600000
  | .mbr => 0x01000000
  | .enc => 0x00100000
  | .cond => 0x60000000

theorem rowMask_eq_groupMask (i : Instr) : i.rowMask = groupMask i.group := by
  cases i <;> rfl

/-- The control field of a group, at its position. -/
def controlBits (f : Fields) : Group → UWord
  | .amux => place f.amux 31
  | .mar => place f.mar 23
  | .alu => place f.alu 27
  | .sh => place f.sh 25
  | .mem => place f.rd 22 ||| place f.wr 21
  | .mbr => place f.mbr 24
  | .enc => place f.enc 20
  | .cond => place f.cond 29

/-- Masking a word with ones at a field's position leaves the field there. -/
theorem and_place_allOnes (w : UWord) (lo n : Nat) :
    w &&& place (BitVec.allOnes n) lo = place (w.extractLsb' lo n) lo := by
  apply BitVec.eq_of_getLsbD_eq
  intro k hk
  simp only [BitVec.getLsbD_and, getLsbD_place, BitVec.getLsbD_extractLsb', BitVec.getLsbD_allOnes]
  by_cases hlo : lo ≤ k
  · simp [hk, hlo, Bool.and_comm]
  · simp [hlo]

theorem and_groupMask (w : UWord) (g : Group) :
    w &&& groupMask g = controlBits (unpack w) g := by
  cases g
  case mem =>
    have hmem := place_extractLsb'_or_adjacent w 21 1 22 1 rfl
    exact (and_place_allOnes w 21 2).trans hmem.symm
  case amux => exact and_place_allOnes w 31 1
  case mar => exact and_place_allOnes w 23 1
  case alu => exact and_place_allOnes w 27 2
  case sh => exact and_place_allOnes w 25 2
  case mbr => exact and_place_allOnes w 24 1
  case enc => exact and_place_allOnes w 20 1
  case cond => exact and_place_allOnes w 29 2

/-- The match of each row of a word is the word's control field of the row's group. -/
theorem rowMatch_of_mem_rows {f : Fields} {i : Instr} (h : i ∈ f.rows) :
    i.rowMatch = controlBits f i.group := by
  rw [mem_rows, mem_subcycle4Rows] at h
  rcases h with rfl | ⟨hmar, rfl⟩ | rfl | rfl | rfl | ⟨hmbr, rfl⟩ | ⟨henc, rfl⟩ | rfl
  · simp [controlBits]
  · simp [controlBits, hmar]; rfl
  · simp [controlBits]
  · simp [controlBits]
  · simp [controlBits, group_decodeMem]
  · simp [controlBits, hmbr]; rfl
  · simp [controlBits, henc]; rfl
  · simp [controlBits, group_decodeCond]

/-- A one-bit field that is set at its position is 1. -/
theorem eq_one_of_place_eq {x : BitVec 1} {lo : Nat} (h : place x lo = place (1 : BitVec 1) lo)
    (hlo : lo + 1 ≤ 32) : x = 1 := by
  rw [← extractLsb'_place_same x lo hlo, h, extractLsb'_place_same 1 lo hlo]

/-- A word whose control field of a row's group is the row's match has a row of that group. -/
theorem exists_mem_rows_of_rowMatch {f : Fields} {i : Instr}
    (h : controlBits f i.group = i.rowMatch) : ∃ j ∈ f.rows, j.group = i.group := by
  by_cases hg : i.group ∈ mandatoryGroups
  · simpa using List.all_eq_true.1 (hasMandatoryGroups_rows f) i.group hg
  · cases i
    case ldMar b =>
      have hmar : f.mar = 1 := eq_one_of_place_eq h (by decide)
      exact ⟨.ldMar (Reg.ofIndex f.b), by simp [mem_rows, hmar], rfl⟩
    case ldMbr =>
      have hmbr : f.mbr = 1 := eq_one_of_place_eq h (by decide)
      exact ⟨.ldMbr, by simp [mem_rows, mem_subcycle4Rows, hmbr], rfl⟩
    case enc c =>
      have henc : f.enc = 1 := eq_one_of_place_eq h (by decide)
      exact ⟨.enc (Reg.ofIndex f.c), by simp [mem_rows, mem_subcycle4Rows, henc], rfl⟩
    all_goals simp [mandatoryGroups, Instr.group] at hg

/-- Each row is read back from its own bits: its control field and its operand meet no other field
that selects a row of its group. -/
theorem mem_decode_encodeRow (i : Instr) : i ∈ decode (encodeRow i) := by
  cases i <;>
    simp (disch := omega) [decode, mem_rows, mem_subcycle4Rows, unpack, encodeRow, Instr.rowMatch,
      Instr.operandBits, BitVec.extractLsb'_or, extractLsb'_place_same, extractLsb'_place_disjoint,
      decodeAmux, decodeAlu, decodeSh, decodeMem, decodeCond]

/-- Settles O4: masking a word with a row's mask leaves the control field of the row's group
(`and_groupMask`), which is the match of the word's row of that group. -/
theorem everyRowDecodesByItsMaskAndMatch : Obligations.EveryRowDecodesByItsMaskAndMatch := by
  refine ⟨fun w i hi => ?_, mem_decode_encodeRow, fun w i hmatch => ?_⟩
  · rw [rowMask_eq_groupMask, and_groupMask, rowMatch_of_mem_rows hi]
  · rw [rowMask_eq_groupMask, and_groupMask] at hmatch
    obtain ⟨j, hj, hgroup⟩ := exists_mem_rows_of_rowMatch hmatch
    exact ⟨j, hj, hgroup, by rw [rowMatch_of_mem_rows hj, hgroup, hmatch]⟩

/-! ## What the decoder drops -/

/-- Words with the same rows have the same fields, but for the unused ones. -/
theorem usedOnly_eq_of_decode_eq {v w : UWord} (h : decode v = decode w) :
    usedOnly (unpack v) = usedOnly (unpack w) := by
  have henc := congrArg encode h
  rw [decode, decode, encode_rows, encode_rows] at henc
  rw [← unpack_pack (usedOnly (unpack v)), henc, unpack_pack]

/-- A bit of a placed field depends on the field only at the field's positions. -/
theorem getLsbD_place_congr {n lo k : Nat} {x y : BitVec n}
    (h : lo ≤ k → k < lo + n → x = y) : (place x lo).getLsbD k = (place y lo).getLsbD k := by
  rw [getLsbD_place, getLsbD_place]
  by_cases hlo : lo ≤ k
  · by_cases hhi : k < lo + n
    · rw [h hlo hhi]
    · rw [BitVec.getLsbD_of_ge x _ (by omega), BitVec.getLsbD_of_ge y _ (by omega)]
  · simp [hlo]

/-- Settles O5: a word is its fields packed; the ten fields that some row always uses are equal, and
the three others where a row uses them. -/
theorem decodeDropsOnlyUnusedFields : Obligations.DecodeDropsOnlyUnusedFields := by
  intro v w h k _ ha hc haddr
  have hused := usedOnly_eq_of_decode_eq h
  rw [← pack_unpack v, ← pack_unpack w]
  simp only [usedOnly, Fields.mk.injEq] at hused
  obtain ⟨hamux, hcond, halu, hsh, hmbr, hmar, hrd, hwr, henc, hfc, hb, hfa, hfaddr⟩ := hused
  rw [hamux] at hfa
  rw [henc] at hfc
  rw [hcond] at hfaddr
  simp only [pack, BitVec.getLsbD_or, hamux, hcond, halu, hsh, hmbr, hmar, hrd, hwr, henc, hb]
  have hplaceC : (place (unpack v).c 16).getLsbD k = (place (unpack w).c 16).getLsbD k :=
    getLsbD_place_congr fun hlo hhi => by
      rcases one_bit_cases (unpack w).enc with h0 | h1
      · exact absurd ⟨hlo, hhi, h0⟩ hc
      · simpa [h1] using hfc
  have hplaceA : (place (unpack v).a 8).getLsbD k = (place (unpack w).a 8).getLsbD k :=
    getLsbD_place_congr fun hlo hhi => by
      have hamux : ¬(unpack w).amux = 1 := fun h1 => ha ⟨hlo, hhi, h1⟩
      rwa [if_neg hamux, if_neg hamux] at hfa
  have hplaceAddr : (place (unpack v).addr 0).getLsbD k = (place (unpack w).addr 0).getLsbD k :=
    getLsbD_place_congr fun _ hhi => by
      have hcond : ¬(unpack w).cond = 0 := fun h0 => haddr ⟨by omega, h0⟩
      rwa [if_neg hcond, if_neg hcond] at hfaddr
  rw [hplaceC, hplaceA, hplaceAddr]

/-! ## The host's questions about words and registers -/

/-- Settles O6, by running the decoder on each printed word. -/
theorem printedWordsDecodeToTheirRows : Obligations.PrintedWordsDecodeToTheirRows := by
  refine ⟨?_, ?_, ?_, ?_, ?_, ?_, ?_⟩ <;> decide

/-- The row that stands for a word is one of its rows: each of the three searches gives one, and the
last cannot fail, since every word has an AMUX row. -/
theorem representative_mem (w : UWord) : ∃ i, representative w = some i ∧ i ∈ decode w := by
  unfold representative
  cases hcovers : (decode w).find? (fun i => i.covers w) with
  | some i => exact ⟨i, rfl, List.mem_of_find?_eq_some hcovers⟩
  | none =>
    cases hmatch : (decode w).find? (fun i => i.rowMatch != 0) with
    | some i => exact ⟨i, rfl, List.mem_of_find?_eq_some hmatch⟩
    | none => exact ⟨decodeAmux (unpack w), rfl, (mem_rows _ _).2 (.inl rfl)⟩

/-- Settles O7: one 32-bit word decodes, and its representative is one of its rows; any other bit
string is rejected. -/
theorem tableWordAnswersARowOfTheWord : Obligations.TableWordAnswersARowOfTheWord := by
  intro nbits w
  refine ⟨fun hno => ?_, fun hbits hw => ?_⟩
  · by_cases hbits : nbits = 32
    · have hwide : 2 ^ 32 ≤ w := by omega
      rw [decodeTableWord, decodeBits, if_neg (not_not_intro hbits), if_pos hwide]
    · rw [decodeTableWord, decodeBits, if_pos hbits]
  · rw [decodeTableWord, decodeBits, if_neg (not_not_intro hbits), if_neg (Nat.not_le.2 hw)]
    exact representative_mem _

/-- Settles O39: the two directions of the index table, and the constants' range, index by index. -/
theorem indicesNameTheBankAndItsConstants : Obligations.IndicesNameTheBankAndItsConstants := by
  refine ⟨index_ofIndex, ofIndex_index, by decide, fun b => ⟨rfl, rfl, rfl, rfl, rfl⟩⟩

end Sys2Proof.Proofs
end

