-- ==== Sys2Proof/Proofs/Rows.lean ====
section
/-! PROOFS. Each row's effect and frame, from every state (rules R58 to R81). -/

namespace Sys2Proof.Proofs

open Sys2Proof.Machine Sys2Proof.Safety Sys2Proof.Laws

/-! ## The ALU and the shifter rows -/

/-- An ALU row's B latch, output and flags, at once (rules R59, R70). -/
theorem aluResult_routeB (s : State) (b : Reg) (r : Word) :
    (s.routeB b).aluResult r = aluWrites s b r := by
  have hn : nFlag r = decide (r ≠ 0 ∧ r.getLsbD 15 = true) :=
    Bool.eq_iff_iff.2 ((nFlag_eq_true_iff r).trans decide_eq_true_iff.symm)
  rw [aluWrites, ← hn]
  rfl

/-- Settles O9: each row is `aluResult` of its function of the inputs (`aluResult_routeB`). -/
theorem aluRowsComputeResultAndFlags : Obligations.AluRowsComputeResultAndFlags := by
  intro s b
  let a := s.lat.aluA
  refine ⟨⟨aluSum a (s.bank.read b), ?_, toNat_aluSum _ _⟩,
    ⟨aluConj a (s.bank.read b), ?_, fun k => BitVec.getLsbD_and⟩,
    ⟨aluPass a, ?_, rfl⟩, ⟨aluCompl a, ?_, toNat_aluCompl _⟩⟩
  all_goals exact congrArg _ (aluResult_routeB s b _)

/-- Settles O10: the three shifts by their values, and the event of SH = 11. -/
theorem shifterRowsWriteTheLatch : Obligations.ShifterRowsWriteTheLatch := fun s =>
  ⟨rfl, ⟨shiftRight1 s.lat.aluOut, rfl, toNat_shiftRight1 _⟩,
    ⟨shiftLeft1 s.lat.aluOut, rfl, toNat_shiftLeft1 _⟩, rfl⟩

/-! ## The routing and the loads -/

/-- Settles O8, by the definition of the two rows. -/
theorem amuxRowsSelectInputA : Obligations.AmuxRowsSelectInputA := fun _ => ⟨fun _ => rfl, rfl⟩

/-- Settles O11, by the definition of the two rows. -/
theorem loadRowsWriteTheirRegister : Obligations.LoadRowsWriteTheirRegister := fun _ =>
  ⟨fun _ => rfl, rfl⟩

/-- ENC stores SHOUT, which a constant ignores, and reports the write of a constant (rule R73). -/
theorem exec_enc (c : Reg) (s : State) : exec (.enc c) s =
    .next { s with bank := s.bank.store c s.shout,
                   events := s.events ++
                     if isMutable c then [] else [ErrorKind.immutableWrite.event] } := by
  rw [← bank_after_word, ← bank_reports_word s.bank c s.shout]
  rfl

/-- Settles O12: the two sides of `exec_enc`. -/
theorem encRowWritesMutableRegisterOrReports :
    Obligations.EncRowWritesMutableRegisterOrReports := by
  intro s c
  refine ⟨fun hmut => ⟨s.bank.store c s.shout, ?_, bank_read_store_same _ _ hmut,
    fun r hr => bank_read_store_other _ _ hr⟩, fun hconst => ?_⟩
  · simp [exec_enc, hmut]
  · rw [exec_enc, bank_store_constant _ _ hconst, hconst]
    rfl

/-! ## The port rows -/

/-- The port's request in closed form (rules R75 to R81). -/
theorem request_eq (s : State) (op : MemOp) : s.request op =
    { s with
      hs := if commitsNow s op = true then Handshake.idle
        else ⟨s.hs.thisReq, decide (op ≠ .none), s.hs.thisOp, op⟩
      mbr := if op = .read ∧ commitsNow s op = true then s.mem.read s.mar else s.mbr
      mem := if op = .write ∧ commitsNow s op = true then s.mem.write s.mar s.mbr else s.mem } := by
  rw [request_frame, request_hs, request_mbr, request_mem]

/-- No request commits nothing. -/
@[simp] theorem commitsNow_none (s : State) : commitsNow s .none = false := by
  simp [commitsNow]

/-- A Write changes no word but the one at its address. -/
theorem read_write_other (m : Memory) {a b : Word} (v : Word) (h : b ≠ a) :
    (m.write a v).read b = m.read b := by
  have hne : b.toNat ≠ a.toNat := fun heq => h (BitVec.eq_of_toNat_eq heq)
  simp only [Memory.read, Memory.write, lookup_insert_other m v hne]

/-- Settles O13: a port row is its request (`request_eq`), which commits or waits. -/
theorem portRowsRequestOrCommit : Obligations.PortRowsRequestOrCommit := by
  intro s
  simp only [exec, execMemNone, execMemRd, execMemWr, request_eq]
  refine ⟨by simp, fun hread => by simp [hread, Handshake.idle], fun hread => by simp [hread],
    fun hwrite => ⟨s.mem.write s.mar s.mbr, by simp [hwrite, Handshake.idle],
      read_write_same _ _ _, fun a ha => read_write_other _ _ ha⟩, fun hwrite => by simp [hwrite]⟩

/-- Settles O14, by the definition of the row. -/
theorem conflictRowRecordsTheFatalError : Obligations.ConflictRowRecordsTheFatalError := fun _ =>
  rfl

/-! ## The frame of every row -/

/-- A store changes no register but a mutable one that it names. -/
theorem bank_read_store_frame (b : Bank) {c r : Reg} (v : Word)
    (h : ¬(c = r ∧ isMutable r = true)) : (b.store c v).read r = b.read r := by
  by_cases hrc : r = c
  · subst hrc
    have hconst : isMutable r = false := eq_false_of_ne_true fun hmut => h ⟨rfl, hmut⟩
    rw [bank_store_constant b v hconst]
  · exact bank_read_store_other b v hrc

/-- Of all rows only ENC writes the bank. -/
theorem exec_bank_read {i : Instr} {s t : State} {r : Reg} (h : exec i s = .next t)
    (hr : ¬(i = .enc r ∧ isMutable r = true)) : t.bank.read r = s.bank.read r := by
  cases i
  case enc c =>
    cases (exec_enc c s).symm.trans h
    exact bank_read_store_frame s.bank s.shout fun ⟨hc, hmut⟩ => hr ⟨congrArg _ hc, hmut⟩
  all_goals cases h
  all_goals simp [request_eq]

/-- Of all rows only a committing Write writes memory. -/
theorem exec_mem_read {i : Instr} {s t : State} {a : Word} (h : exec i s = .next t)
    (ha : ¬(i = .memWr ∧ commitsNow s .write = true ∧ a = s.mar)) :
    t.mem.read a = s.mem.read a := by
  cases i
  case memWr =>
    cases h
    rw [request_mem]
    split
    case isTrue hnow => exact read_write_other _ _ fun heq => ha ⟨rfl, hnow.2, heq⟩
    case isFalse => rfl
  all_goals cases h
  all_goals simp [request_eq]

/-- Settles O16: the bank and memory by `exec_bank_read` and `exec_mem_read`; each other clause row
by row, since a row's effect names what it writes. -/
theorem everyRowChangesOnlyItsOwnState : Obligations.EveryRowChangesOnlyItsOwnState := by
  intro i s t h
  refine ⟨fun r => exec_bank_read h, fun a => exec_mem_read h, ?alu, ?amux, ?shout, ?mar, ?mbr, ?hs,
    ?mpc, ?events, ?fault, ?mir, ?prog⟩
  case fault => exact exec_fault h
  all_goals
    cases i <;> cases h <;> simp +contextual [Instr.group, request_eq, bank_reports_word]

end Sys2Proof.Proofs
end

