-- ==== Sys2Proof/Proofs/Cycle.lean ====
section
/-! PROOFS. The whole cycle in closed form, field by field, everything a step can do, and rule R50's
pseudocode (rules R50 to R57, R76). -/

namespace Sys2Proof.Proofs

open Sys2Proof.Machine Sys2Proof.Safety Sys2Proof.Laws

/-! ## Subcycle 4 of a conflict, and the whole cycle in closed form -/

/-- The state after the port of a conflicting word: it has shifted, and the fatal kind is recorded
(rules R75, R76). -/
def conflicted (s : State) : State := (s.setHs s.hs.shift).raiseFatal .conflictingMemoryOp

theorem exec_decodeMem_conflict {f : Fields} (hf : isConflict f) (s : State) :
    exec (decodeMem f) s = .next (conflicted s) := by
  rw [decodeMem, if_pos hf.1, if_pos hf.2]
  rfl

/-- The rows of subcycle 4 in closed form, for a conflicting word: the port's row ends it. -/
theorem runRows_subcycle4Rows_conflict {f : Fields} (hf : isConflict f) (s : State) :
    runRows (subcycle4Rows f) s = .next (conflicted s) :=
  runRows_stops (exec_decodeMem_conflict hf s) rfl

/-- The state after a whole cycle with the fields `f`, from the state with the word in MIR. -/
def cycled (f : Fields) (s : State) : State :=
  (if f.rd = 1 ∧ f.wr = 1 then conflicted (computed f s)
    else committed f (computed f s)).clearLatches

section Cycled

variable {f : Fields} (s : State)

theorem cycled_of_conflict (hf : isConflict f) :
    cycled f s = (conflicted (computed f s)).clearLatches :=
  congrArg State.clearLatches (if_pos hf)

theorem cycled_of_noConflict (hf : ¬isConflict f) :
    cycled f s = (committed f (computed f s)).clearLatches :=
  congrArg State.clearLatches (if_neg hf)

end Cycled

/-- A step that fetches a word, in closed form. -/
theorem step_eq_cycled {s : State} {w : UWord} (h : Fetches s w) :
    step s = .next (cycled (unpack w) (s.setMir w)) := by
  by_cases hw : isConflict (unpack w)
  · rw [step_of_fetches h, runRows_subcycle4Rows_conflict hw, endCycle, cycled_of_conflict _ hw]
  · rw [step_of_noConflict h hw, cycled_of_noConflict _ hw]

/-- A step with no word to fetch. -/
theorem step_of_noWord {s : State} (hfault : s.fault = none) (hword : s.prog[s.mpc]? = none) :
    step s = .next (s.raiseFatal .programCounterOutOfRange) := by
  simp only [step, fullCycle, hfault, cycle, State.programWord, hword]

/-- Settles O20: `step` asks for the fault first. -/
theorem faultedMachineTakesNoStep : Obligations.FaultedMachineTakesNoStep := by
  intro s k hfault
  simp only [step, fullCycle, hfault]

/-- Everything a step can do: record that there is no word, or run the word's cycle. -/
theorem step_next_cases {s t : State} (h : step s = .next t) :
    (s.prog[s.mpc]? = none ∧ t = s.raiseFatal .programCounterOutOfRange) ∨
      ∃ w, Fetches s w ∧ t = cycled (unpack w) (s.setMir w) := by
  cases hfault : s.fault with
  | some k =>
    rw [faultedMachineTakesNoStep s k hfault] at h
    cases h
  | none =>
    cases hword : s.prog[s.mpc]? with
    | none =>
      rw [step_of_noWord hfault hword] at h
      cases h
      exact .inl ⟨rfl, rfl⟩
    | some w =>
      have hw : Fetches s w := ⟨hfault, hword⟩
      rw [step_eq_cycled hw] at h
      cases h
      exact .inr ⟨w, hw, rfl⟩

/-! ## A cycle's effect, field by field -/

section CycledFields

variable (f : Fields) (s : State)

@[simp] theorem cycled_mir : (cycled f s).mir = s.mir := by unfold cycled; split <;> rfl
@[simp] theorem cycled_prog : (cycled f s).prog = s.prog := by unfold cycled; split <;> rfl
@[simp] theorem cycled_lat : (cycled f s).lat = Latches.clear := rfl

@[simp] theorem cycled_mar : (cycled f s).mar = addressAtCommit f s := by
  unfold cycled; split <;> rfl

@[simp] theorem cycled_z : (cycled f s).z = zFlag (aluResultOf f s) := by
  unfold cycled; split <;> rfl

@[simp] theorem cycled_n : (cycled f s).n = nFlag (aluResultOf f s) := by
  unfold cycled; split <;> rfl

@[simp] theorem cycled_shout : (cycled f s).shout = shoutOf f.sh s.shout (aluResultOf f s) := by
  unfold cycled; split <;> rfl

theorem cycled_fault : (cycled f s).fault =
    if f.rd = 1 ∧ f.wr = 1 then some .conflictingMemoryOp else s.fault := by
  unfold cycled; split <;> rfl

theorem committed_bank : (committed f s).bank =
    if f.enc = 1 then s.bank.store (Reg.ofIndex f.c) s.shout else s.bank := by
  rw [← bank_after_word]
  rfl

/-- Only a word that is no conflict and has ENC writes the bank (rules R54, R73, R76). -/
theorem cycled_bank : (cycled f s).bank =
    if ¬(f.rd = 1 ∧ f.wr = 1) ∧ f.enc = 1
      then s.bank.store (Reg.ofIndex f.c) (cycled f s).shout else s.bank := by
  by_cases hf : isConflict f
  · rw [cycled_of_conflict s hf, if_neg fun h => h.1 hf]
    rfl
  · simp only [and_iff_right (show ¬(f.rd = 1 ∧ f.wr = 1) from hf)]
    rw [cycled_of_noConflict s hf]
    exact committed_bank f (computed f s)

theorem encReports_eq : encReports f s =
    if f.enc = 1 ∧ isMutable (Reg.ofIndex f.c) = false
      then [ErrorKind.immutableWrite.event] else [] := by
  rw [encReports, bank_reports_word]
  by_cases henc : f.enc = 1 <;> cases hc : isMutable (Reg.ofIndex f.c) <;> simp [henc]

theorem cycled_events : (cycled f s).events = s.events ++ shiftReports f.sh ++
    if ¬(f.rd = 1 ∧ f.wr = 1) ∧ f.enc = 1 ∧ isMutable (Reg.ofIndex f.c) = false
      then [ErrorKind.immutableWrite.event] else [] := by
  by_cases hf : isConflict f
  · rw [cycled_of_conflict s hf, if_neg fun h => h.1 hf, List.append_nil]
    rfl
  · simp only [and_iff_right (show ¬(f.rd = 1 ∧ f.wr = 1) from hf)]
    rw [cycled_of_noConflict s hf, ← encReports_eq f (computed f s)]
    rfl

/-- A committing Write of a word that is no conflict writes memory, and nothing else does. -/
theorem cycled_mem : (cycled f s).mem =
    if ¬(f.rd = 1 ∧ f.wr = 1) ∧ requestOf f = .write ∧ commitsNow s .write = true
      then s.mem.write (addressAtCommit f s) s.mbr else s.mem := by
  by_cases hf : isConflict f
  · rw [cycled_of_conflict s hf, if_neg fun h => h.1 hf]
    rfl
  · simp only [and_iff_right (show ¬(f.rd = 1 ∧ f.wr = 1) from hf)]
    rw [cycled_of_noConflict s hf]
    refine (request_mem (computed f s) (requestOf f)).trans (if_congr ?_ rfl rfl)
    exact and_congr_right fun hop => by rw [hop]; rfl

section NoConflict

variable {f}

theorem cycled_hs (hf : ¬isConflict f) : (cycled f s).hs = (s.request (requestOf f)).hs := by
  rw [cycled_of_noConflict s hf, request_hs]
  exact request_hs (computed f s) (requestOf f)

/-- MBR takes SHOUT with LD_MBR, and else what the port leaves there (rules R54, R72). -/
theorem cycled_mbr (hf : ¬isConflict f) : (cycled f s).mbr =
    if f.mbr = 1 then (cycled f s).shout
    else if requestOf f = .read ∧ commitsNow s (requestOf f) = true
      then s.mem.read (addressAtCommit f s) else s.mbr := by
  rw [cycled_of_noConflict s hf]
  exact if_congr Iff.rfl rfl (request_mbr (computed f s) (requestOf f))

theorem cycled_mpc (hf : ¬isConflict f) : (cycled f s).mpc =
    nextMpc s.mpc f.cond f.addr (zFlag (aluResultOf f s)) (nFlag (aluResultOf f s)) := by
  rw [cycled_of_noConflict s hf]
  rfl

end NoConflict

end CycledFields

/-! ## Rule R50's pseudocode -/

theorem toNat_aluResultOf (f : Fields) (s : State) :
    (aluResultOf f s).toNat = referenceResult f s := by
  rcases two_bit_cases f.alu with h | h | h | h <;>
    simp [aluResultOf, aluOf, referenceResult, referenceAlu, h, aluConj, aluPass]

theorem zFlag_aluResultOf (f : Fields) (s : State) :
    zFlag (aluResultOf f s) = referenceZ (referenceResult f s) := by
  rw [← toNat_aluResultOf, zFlag, referenceZ, Bool.eq_iff_iff]
  simp [BitVec.toNat_eq]

theorem nFlag_aluResultOf (f : Fields) (s : State) :
    nFlag (aluResultOf f s) = referenceN (referenceResult f s) := by
  have hsign (r : Word) : signBit r = decide (2 ^ 15 ≤ r.toNat) := r.msb_eq_decide
  rw [nFlag, zFlag_aluResultOf, hsign, toNat_aluResultOf]
  rfl

theorem shoutOf_aluResultOf (f : Fields) (s : State) :
    shoutOf f.sh s.shout (aluResultOf f s) = referenceShout f s := by
  rw [referenceShout, ← toNat_aluResultOf]
  rcases two_bit_cases f.sh with h | h | h | h <;>
    simp [shoutOf, referenceShift, h, shiftRight1, shiftLeft1]


/-- What the shifter reports, as the pseudocode writes it. -/
theorem append_shiftReports (l : List Event) (op : BitVec 2) : l ++ shiftReports op =
    if op = 3 then l ++ [ErrorKind.undefinedShiftOp.event] else l := by
  rcases two_bit_cases op with rfl | rfl | rfl | rfl <;> simp [shiftReports]

/-- Subcycle 4 after the port is the pseudocode's write-back, on the state the port leaves. -/
theorem committed_eq_referenceWriteBack (f : Fields) (s : State) :
    committed f s = referenceWriteBack f s.z s.n (s.request (requestOf f)) := by
  have hbank : (committed f s).bank = if f.enc = 1 ∧ isMutable (Reg.ofIndex f.c) = true
      then s.bank.store (Reg.ofIndex f.c) s.shout else s.bank := by
    rw [committed_bank]
    cases hc : isMutable (Reg.ofIndex f.c) with
    | true => simp only [and_true]
    | false => simp [bank_store_constant _ _ hc]
  have hevents : (committed f s).events = if f.enc = 1 ∧ isMutable (Reg.ofIndex f.c) = false
      then s.events ++ [ErrorKind.immutableWrite.event] else s.events := by
    change s.events ++ encReports f s = _
    rw [encReports_eq]
    by_cases h : f.enc = 1 ∧ isMutable (Reg.ofIndex f.c) = false
    · rw [if_pos h, if_pos h]
    · rw [if_neg h, if_neg h, List.append_nil]
  have hmpc : (committed f s).mpc = referenceNext s.mpc f.cond f.addr s.z s.n :=
    nextMpc_eq_referenceNext ..
  rw [referenceWriteBack, request_frame]
  simp only [← hbank, ← hevents, ← hmpc]
  rfl

/-- A request that was pending commits (rules R77, R78). -/
theorem request_of_pending (s : State) {op : MemOp} (hop : op ≠ .none)
    (h : s.hs.thisReq = true ∧ s.hs.thisOp = op) :
    s.request op = (s.perform op).setHs Handshake.idle :=
  request_commits s op (by simpa [commits_shift_set, commitsNow, hop] using h)

/-- A request that was not pending waits. -/
theorem request_of_not_pending (s : State) {op : MemOp}
    (h : ¬(s.hs.thisReq = true ∧ s.hs.thisOp = op)) :
    s.request op = s.setHs (s.hs.shift.set op) :=
  request_waits s op (by simpa [commits_shift_set, commitsNow] using fun h1 _ h2 => h ⟨h1, h2⟩)

/-- The cycle in closed form is rule R50's pseudocode: the ALU and the shifter by their values as
numbers, then the cases of RD and WR. -/
theorem cycled_eq_referenceCycle {s : State} {w : UWord} (h : Fetches s w) :
    cycled (unpack w) (s.setMir w) = referenceCycle s := by
  simp only [referenceCycle, h.word, ← zFlag_aluResultOf, ← nFlag_aluResultOf,
    ← shoutOf_aluResultOf, ← append_shiftReports]
  by_cases hf : isConflict (unpack w)
  · rw [cycled_of_conflict _ hf]
    exact (if_pos hf).symm
  · rw [cycled_of_noConflict _ hf, committed_eq_referenceWriteBack, requestOf]
    refine Eq.trans ?_ (if_neg hf).symm
    by_cases hrd : (unpack w).rd = 1
    · rw [if_pos hrd, if_pos hrd]
      by_cases hread : s.hs.thisReq = true ∧ s.hs.thisOp = .read
      · rw [if_pos hread, request_of_pending (computed _ (s.setMir w)) (by decide) hread]
        rfl
      · rw [if_neg hread, request_of_not_pending (computed _ (s.setMir w)) hread]
        rfl
    · rw [if_neg hrd, if_neg hrd]
      by_cases hwr : (unpack w).wr = 1
      · rw [if_pos hwr, if_pos hwr]
        by_cases hwrite : s.hs.thisReq = true ∧ s.hs.thisOp = .write
        · rw [if_pos hwrite, request_of_pending (computed _ (s.setMir w)) (by decide) hwrite]
          rfl
        · rw [if_neg hwrite, request_of_not_pending (computed _ (s.setMir w)) hwrite]
          rfl
      · rw [if_neg hwr, if_neg hwr, request_waits _ .none (commitsNow_none _)]
        rfl

/-- Settles O18: without a word both record the fault; with one, `cycled_eq_referenceCycle`. -/
theorem cycleFollowsTheFourSubcycles : Obligations.CycleFollowsTheFourSubcycles := by
  intro s hfault
  cases hword : s.prog[s.mpc]? with
  | none =>
    rw [step_of_noWord hfault hword, referenceCycle, hword]
    rfl
  | some w =>
    have hw : Fetches s w := ⟨hfault, hword⟩
    rw [step_eq_cycled hw, cycled_eq_referenceCycle hw]

end Sys2Proof.Proofs
end

