-- ==== Sys2Proof/Proofs/CycleClauses.lean ====
section
/-! PROOFS. What every cycle does and leaves alone: each clause from the closed form of the cycle
(rules R68, R71 to R73, R76, R83, R92, R93). -/

namespace Sys2Proof.Proofs

open Sys2Proof.Machine Sys2Proof.Safety Sys2Proof.Laws

/-! ## The step -/

/-- Settles O17: a step is the fetch and `runRows`, whose two cases are `runRows_cons` and
`runRows_stops`. -/
theorem stepRunsTheRowsOfTheFetchedWord : Obligations.StepRunsTheRowsOfTheFetchedWord := by
  refine ⟨fun s w h => ?_, fun s => rfl, fun i l s t h => ⟨runRows_cons h, fun hfault => ?_⟩,
    fun t => rfl⟩
  · simp only [step, fullCycle, h.noFault, cycle, State.programWord, h.word, State.setMir]
  · obtain ⟨k, hk⟩ := Option.ne_none_iff_exists'.1 hfault
    exact runRows_stops h hk

/-- Settles O19: past the program there is no word (`step_of_noWord`); inside it the cycle of the
word starts with the fetch, and its only fatal error is the conflict. -/
theorem fetchPastTheProgramFaults : Obligations.FetchPastTheProgramFaults := by
  intro s hfault
  refine ⟨fun hpast => step_of_noWord hfault (List.getElem?_eq_none hpast), fun hin => ?_⟩
  have hw : Fetches s s.prog[s.mpc] := ⟨hfault, List.getElem?_eq_getElem hin⟩
  refine ⟨_, step_eq_cycled hw, cycled_mir _ _, ?_⟩
  rw [cycled_fault]
  split <;> simp [hfault]

/-! ## The clauses of a cycle -/

/-- Settles O22: with SH = 11 the cycle's SHOUT is the old one, and the other loads use it. -/
theorem undefinedShiftKeepsTheOldOutput : Obligations.UndefinedShiftKeepsTheOldOutput := by
  intro s w h hsh
  let u := s.setMir w
  have hshout : (cycled (unpack w) u).shout = s.shout := by simp [u, shoutOf, hsh]
  refine ⟨_, step_eq_cycled h, hshout, ?event, fun hconflict => ⟨?fault, ?mbr, ?bank⟩⟩
  case event => simp [cycled_events, shiftReports, hsh, ErrorKind.event, ErrorKind.severity]
  case fault => exact (cycled_fault _ _).trans ((if_neg hconflict).trans h.noFault)
  case mbr => intro hmbr; rw [cycled_mbr _ hconflict, if_pos hmbr, hshout]
  case bank =>
    intro henc hmut
    rw [cycled_bank, if_pos ⟨hconflict, henc⟩, bank_read_store_same _ _ hmut, hshout]

/-- Settles O23: MAR, MBR, the bank and the events of the cycle in closed form. -/
theorem loadsAndWriteBackOfEveryCycle : Obligations.LoadsAndWriteBackOfEveryCycle := by
  intro s w h f c
  refine ⟨_, step_eq_cycled h, ?ldMar, ?keepMar, ?ldMbr, ?enc, ?constant, ?noEnc, ?fault, ?conflict⟩
  case ldMar => intro hmar; exact (cycled_mar _ _).trans (if_pos hmar)
  case keepMar => intro hmar; exact (cycled_mar _ _).trans (if_neg (by simp [f, hmar]))
  case ldMbr => intro hconflict hmbr; rw [cycled_mbr _ hconflict, if_pos hmbr]
  case enc =>
    intro hconflict henc hmut
    rw [cycled_bank, if_pos ⟨hconflict, henc⟩, bank_read_store_same _ _ hmut]
  case constant =>
    intro hconflict henc hconst
    rw [cycled_bank, cycled_events, if_pos ⟨hconflict, henc⟩, if_pos ⟨hconflict, henc, hconst⟩]
    exact ⟨bank_store_constant _ _ hconst, List.getLast?_concat⟩
  case noEnc =>
    intro henc
    exact (cycled_bank _ _).trans (if_neg fun hno => by simp [f, henc] at hno)
  case fault => intro hconflict; exact (cycled_fault _ _).trans ((if_neg hconflict).trans h.noFault)
  case conflict => intro hconflict; rw [cycled_of_conflict _ hconflict]; exact ⟨rfl, rfl⟩

/-- Settles O26: LD_MBR comes last on MBR, and the port stores the MBR of the cycle's start. -/
theorem portComesBeforeTheMbrLoad : Obligations.PortComesBeforeTheMbrLoad := by
  intro s w h hmbr hconflict
  refine ⟨_, step_eq_cycled h, (cycled_mbr _ hconflict).trans (if_pos hmbr), fun hop hnow => ?_⟩
  rw [cycled_mem, if_pos ⟨hconflict, hop, hnow⟩, cycled_mar]
  exact ⟨read_write_same _ _ _, fun a ha => read_write_other _ _ ha⟩

/-- Settles O27: subcycles 1 to 3 by their values as numbers, and the shifted port. -/
theorem conflictEndsTheCycle : Obligations.ConflictEndsTheCycle := by
  intro s w h hconflict f
  have hstop : (cycled f (s.setMir w)).fault = some .conflictingMemoryOp :=
    (cycled_fault _ _).trans (if_pos hconflict)
  have hevents : (cycled f (s.setMir w)).events = s.events ++ shiftReports f.sh := by
    rw [cycled_of_conflict _ hconflict]
    rfl
  refine ⟨_, step_eq_cycled h, hstop, ?_⟩
  rw [faultedMachineTakesNoStep _ _ hstop, hevents, cycled_of_conflict _ hconflict]
  exact ⟨rfl, rfl, rfl, rfl, rfl, rfl, rfl, zFlag_aluResultOf _ _, nFlag_aluResultOf _ _,
    shoutOf_aluResultOf _ _, rfl, rfl⟩

/-- Settles O28: the events and the fault of the cycle in closed form. -/
theorem errorsOfOneCycleInOrder : Obligations.ErrorsOfOneCycleInOrder := by
  intro s w h f
  refine ⟨_, step_eq_cycled h, cycled_events _ _,
    fun hconflict => (cycled_fault _ _).trans (if_pos hconflict),
    fun hconflict => (cycled_fault _ _).trans ((if_neg hconflict).trans h.noFault), ?_⟩
  simp [reported, h.noFault]

/-- Settles O29: the bank and memory in closed form, with the frames of a store and of a Write. -/
theorem cycleChangesOnlyItsDestinations : Obligations.CycleChangesOnlyItsDestinations := by
  intro s t w h hstep f
  cases (step_eq_cycled h).symm.trans hstep
  refine ⟨fun r hr => ?_, fun a ha => ?_, cycled_prog _ _, cycled_mir _ _⟩
  · rw [cycled_bank]
    split
    case isTrue henc =>
      exact bank_read_store_frame _ _ fun ⟨hc, hmut⟩ => hr ⟨henc.2, henc.1, hc.symm, hmut⟩
    case isFalse => rfl
  · rw [cycled_mem]
    split
    case isTrue hwrite =>
      exact read_write_other _ _ fun heq => ha ⟨hwrite.1, hwrite.2.1, hwrite.2.2, heq⟩
    case isFalse => rfl

/-- Settles O30: the two steps are the same cycle in closed form, which overwrites all that
differs. -/
theorem staleMirFlagsAndLatchesAreNeverRead : Obligations.StaleMirFlagsAndLatchesAreNeverRead := by
  intro s w mir z n lat h
  have h' : Fetches { s with mir := mir, z := z, n := n, lat := lat } w := ⟨h.noFault, h.word⟩
  rw [step_eq_cycled h, step_eq_cycled h']
  rfl

/-- Rule R83's table has one of three outcomes. -/
theorem nextMpc_cases (mpc : Nat) (cond : BitVec 2) (addr : BitVec 8) (z n : Bool) :
    nextMpc mpc cond addr z n = mpc ∨ nextMpc mpc cond addr z n = mpc + 1 ∨
      nextMpc mpc cond addr z n = addr.toNat := by
  unfold nextMpc
  split_ifs <;> simp

/-- Settles O31: a step without a word and a conflict leave MPC; any other cycle sets it by the
table (`nextMpc_cases`). -/
theorem mpcMovesByOneOrToALowIndex : Obligations.MpcMovesByOneOrToALowIndex := by
  intro s t h
  rcases step_next_cases h with ⟨-, rfl⟩ | ⟨w, -, rfl⟩
  · exact ⟨rfl, .inl rfl⟩
  · refine ⟨cycled_prog _ _, ?_⟩
    by_cases hconflict : isConflict (unpack w)
    · rw [cycled_of_conflict _ hconflict]
      exact .inl rfl
    · rw [cycled_mpc _ hconflict]
      refine (nextMpc_cases _ _ _ _ _).imp_right (.imp_right fun haddr => ?_)
      exact haddr ▸ (unpack w).addr.isLt

end Sys2Proof.Proofs
end

