-- ==== Sys2Proof/Proofs/PortSequence.lean ====
section
/-! PROOFS. The memory port over several cycles: when an access commits, how often, and what two
cycles of one request do (rules R82, R109 to R111). -/

namespace Sys2Proof.Proofs

open Sys2Proof.Machine Sys2Proof.Safety Sys2Proof.Laws

/-! ## The handshake over a sequence of requests (rules R75, R77, R78, R82) -/

theorem commits_shift_set_iff (h : Handshake) (op : MemOp) :
    (h.shift.set op).commits = true ↔ (h.thisReq = true ∧ h.thisOp = op) ∧ op ≠ .none := by
  simp [Handshake.commits, Handshake.shift, Handshake.set, and_right_comm]

theorem portAfter_of_commit {h : Handshake} {op : MemOp} (hc : (h.shift.set op).commits = true) :
    portAfter h op = Handshake.idle := if_pos hc

theorem portAfter_of_wait {h : Handshake} {op : MemOp} (hc : (h.shift.set op).commits = false) :
    portAfter h op = h.shift.set op := if_neg (ne_true_of_eq_false hc)

/-- A cycle commits exactly when it requests what the cycle before requested and did not commit. -/
theorem commits_portAfter_iff (h : Handshake) (op op' : MemOp) :
    ((portAfter h op).shift.set op').commits = true ↔
      op' = op ∧ op' ≠ .none ∧ (h.shift.set op).commits = false := by
  rw [commits_shift_set_iff]
  cases hc : (h.shift.set op).commits with
  | true => simp [portAfter_of_commit hc, Handshake.idle]
  | false =>
    rw [portAfter_of_wait hc]
    have hset : (h.shift.set op).thisReq = true ↔ op ≠ .none := decide_eq_true_iff
    constructor
    · rintro ⟨⟨-, hop⟩, hne⟩
      exact ⟨hop.symm, hne, rfl⟩
    · rintro ⟨rfl, hne, -⟩
      exact ⟨⟨hset.2 hne, rfl⟩, hne⟩

/-- Rule R82 from any port, for every cycle but the first. -/
theorem commitTrace_succ_iff (h : Handshake) (ops : List MemOp) (j : Nat) :
    (commitTrace h ops)[j + 1]? = some true ↔
      ops[j + 1]? = ops[j]? ∧ (∃ op, ops[j + 1]? = some op ∧ op ≠ .none) ∧
        (commitTrace h ops)[j]? = some false := by
  induction j generalizing h ops with
  | zero =>
    match ops with
    | [] => simp [commitTrace]
    | [_] => simp [commitTrace]
    | op :: op' :: ops => simp [commitTrace, commits_portAfter_iff]
  | succ j ih =>
    match ops with
    | [] => simp [commitTrace]
    | op :: ops => exact ih (portAfter h op) ops

/-- Settles O34: from an idle port the first cycle does not commit, and every later one is
`commitTrace_succ_iff`. -/
theorem accessCommitsIffRequestWasSustained : Obligations.AccessCommitsIffRequestWasSustained := by
  intro ops k
  cases k with
  | zero =>
    refine iff_of_false ?_ (by rintro ⟨j, hj, -⟩; cases hj)
    cases ops <;>
      simp [commitTrace, Handshake.commits, Handshake.shift, Handshake.set, Handshake.idle]
  | succ j =>
    rw [commitTrace_succ_iff]
    exact ⟨fun h => ⟨j, rfl, h⟩, fun ⟨_, hj, h⟩ => Nat.succ.inj hj ▸ h⟩

/-- A held request waits and commits in turn, from a port where it is not pending. -/
theorem count_commitTrace_replicate {op : MemOp} (hop : op ≠ .none) :
    ∀ (k : Nat) (h : Handshake), ¬(h.thisReq = true ∧ h.thisOp = op) →
      (commitTrace h (List.replicate k op)).count true = k / 2
  | 0, _, _ => rfl
  | 1, h, hnot => by
    have hwait : (h.shift.set op).commits = false :=
      eq_false_of_ne_true fun hc => hnot ((commits_shift_set_iff h op).1 hc).1
    simp [commitTrace, hwait]
  | k + 2, h, hnot => by
    have hwait : (h.shift.set op).commits = false :=
      eq_false_of_ne_true fun hc => hnot ((commits_shift_set_iff h op).1 hc).1
    have hcommit : ((portAfter h op).shift.set op).commits = true :=
      (commits_portAfter_iff h op op).2 ⟨rfl, hop, hwait⟩
    have hrest := count_commitTrace_replicate hop k Handshake.idle (by simp [Handshake.idle])
    simp [List.replicate_succ, commitTrace, hwait, hcommit, portAfter_of_commit hcommit, hrest]

/-- The machine's request moves its port as the sequence does. -/
theorem request_hs_eq_portAfter (s : State) (op : MemOp) :
    (s.request op).hs = portAfter s.hs op := by
  cases hc : (s.hs.shift.set op).commits with
  | true => rw [request_commits s op hc, portAfter_of_commit hc, Laws.State.setHs_hs]
  | false => rw [request_waits s op hc, portAfter_of_wait hc, Laws.State.setHs_hs]

/-- Settles O35: the count by two cycles at a time, and each cycle's port by its closed form. -/
theorem heldRequestCommitsEverySecondCycle : Obligations.HeldRequestCommitsEverySecondCycle :=
  ⟨fun h _ k hop hnot => count_commitTrace_replicate hop k h hnot, fun s w h hconflict =>
    ⟨_, step_eq_cycled h,
      (cycled_hs _ hconflict).trans (request_hs_eq_portAfter (s.setMir w) _)⟩⟩

/-! ## Two cycles of one access (rules R109 to R111) -/

/-- The first cycle of a request waits: it is pending in the next, and memory is untouched. -/
theorem pending_of_first_request {s t : State} {w : UWord} (h : Fetches s w)
    (hstep : step s = .next t) (hconflict : ¬isConflict (unpack w))
    (hreq : requestOf (unpack w) ≠ .none)
    (hfirst : ¬(s.hs.thisReq = true ∧ s.hs.thisOp = requestOf (unpack w))) :
    (t.hs.thisReq = true ∧ t.hs.thisOp = requestOf (unpack w)) ∧ t.mem = s.mem := by
  cases (step_eq_cycled h).symm.trans hstep
  rw [cycled_hs _ hconflict, request_of_not_pending (s.setMir w) hfirst, cycled_mem]
  refine ⟨⟨decide_eq_true hreq, rfl⟩, if_neg ?_⟩
  rintro ⟨-, hop, hnow⟩
  rw [← hop] at hnow
  exact hfirst ((commits_shift_set_iff s.hs _).1 hnow).1

/-- The second cycle commits: the port is idle after it. -/
theorem idle_of_pending_request {s : State} {w : UWord} (hconflict : ¬isConflict (unpack w))
    (hreq : requestOf (unpack w) ≠ .none)
    (hpending : s.hs.thisReq = true ∧ s.hs.thisOp = requestOf (unpack w)) :
    commitsNow s (requestOf (unpack w)) = true ∧
      (cycled (unpack w) (s.setMir w)).hs = Handshake.idle := by
  refine ⟨(commits_shift_set_iff s.hs _).2 ⟨hpending, hreq⟩, ?_⟩
  rw [cycled_hs _ hconflict, request_of_pending (s.setMir w) hreq hpending]
  rfl

/-- Settles O36: the first cycle leaves the Read pending, the second commits it at its own MAR. -/
theorem sustainedReadDeliversTheWord : Obligations.SustainedReadDeliversTheWord := by
  intro s t v w hv hstep hw hreadv hreadw hcv hcw hmbr hfirst
  have hne : MemOp.read ≠ .none := by decide
  obtain ⟨hpending, hmem⟩ := pending_of_first_request hv hstep hcv (hreadv ▸ hne) (hreadv ▸ hfirst)
  rw [hreadv, ← hreadw] at hpending
  obtain ⟨hnow, hidle⟩ := idle_of_pending_request hcw (hreadw ▸ hne) hpending
  refine ⟨_, step_eq_cycled hw, ?_, ?_, hidle⟩
  · rw [cycled_mbr _ hcw, if_neg (by simp [hmbr])]
    exact (if_pos ⟨hreadw, hnow⟩).trans (hmem ▸ rfl)
  · rw [cycled_mem, hreadw]
    exact (if_neg (by simp)).trans hmem

/-- Settles O37: the first cycle leaves the Write pending, the second stores the MBR it left. -/
theorem sustainedWriteStoresTheWord : Obligations.SustainedWriteStoresTheWord := by
  intro s t v w hv hstep hw hwritev hwritew hcv hcw hfirst
  have hne : MemOp.write ≠ .none := by decide
  obtain ⟨hpending, hmem⟩ :=
    pending_of_first_request hv hstep hcv (hwritev ▸ hne) (hwritev ▸ hfirst)
  rw [hwritev, ← hwritew] at hpending
  obtain ⟨hnow, hidle⟩ := idle_of_pending_request hcw (hwritew ▸ hne) hpending
  rw [hwritew] at hnow
  have hstore : (cycled (unpack w) (t.setMir w)).mem =
      t.mem.write (addressAtCommit (unpack w) t) t.mbr :=
    (cycled_mem _ _).trans (if_pos ⟨hcw, hwritew, hnow⟩)
  refine ⟨_, step_eq_cycled hw, hidle, ?_, fun a ha => ?_⟩
  · rw [hstore, read_write_same]
  · rw [hstore, read_write_other _ _ ha, hmem]

end Sys2Proof.Proofs
end

