-- ==== Sys2Proof/Proofs/HoldAndHalt.lean ====
section
/-! PROOFS. A word that writes nothing and leaves MPC: the hold of rule R88 and the Stop word
of rule R108. -/

namespace Sys2Proof.Proofs

open Sys2Proof.Machine Sys2Proof.Safety Sys2Proof.Laws

/-! ## A word that writes nothing -/

/-- A word that loads no register, requests no access and reports nothing. -/
structure WritesNothing (f : Fields) : Prop where
  mbr : f.mbr = 0
  mar : f.mar = 0
  enc : f.enc = 0
  rd : f.rd = 0
  wr : f.wr = 0
  sh : f.sh ≠ 3

/-- The state after a cycle of such a word that leaves MPC: the flags and SHOUT are this cycle's,
and the port has shifted. -/
def held (f : Fields) (s : State) : State :=
  { s with
    z := zFlag (aluResultOf f s)
    n := nFlag (aluResultOf f s)
    shout := shoutOf f.sh s.shout (aluResultOf f s)
    hs := ⟨s.hs.thisReq, false, s.hs.thisOp, .none⟩
    lat := Latches.clear }

/-- The next MPC of a cycle that resolves its branch is the same MPC (rule R83). -/
def Holds (f : Fields) (s : State) : Prop :=
  nextMpc s.mpc f.cond f.addr (zFlag (aluResultOf f s)) (nFlag (aluResultOf f s)) = s.mpc

theorem cycled_eq_held {f : Fields} {s : State} (hf : WritesNothing f) (hhold : Holds f s) :
    cycled f s = held f s := by
  obtain ⟨hmbr, hmar, henc, hrd, hwr, hsh⟩ := hf
  have hconflict : ¬isConflict f := fun hc => by simp [isConflict, hrd] at hc
  have hreq : requestOf f = .none := by simp [requestOf, hrd, hwr]
  have hevents : shiftReports f.sh = [] := if_neg hsh
  have hmpc : nextMpc (computed f s).mpc f.cond f.addr (computed f s).z (computed f s).n = s.mpc :=
    hhold
  rw [cycled_of_noConflict _ hconflict, committed, hreq, request_eq, hmpc]
  simp [held, computed, addressAtCommit, encReports, hmbr, hmar, henc, hevents, State.clearLatches]

theorem step_eq_held {s : State} {w : UWord} (h : Fetches s w) (hw : WritesNothing (unpack w))
    (hhold : Holds (unpack w) s) : step s = .next (held (unpack w) (s.setMir w)) :=
  (step_eq_cycled h).trans (congrArg _ (cycled_eq_held (s := s.setMir w) hw hhold))

/-- Only SH = 11 keeps the old SHOUT. -/
theorem shoutOf_irrelevant {op : BitVec 2} (hop : op ≠ 3) (old old' x : Word) :
    shoutOf op old x = shoutOf op old' x := by
  rcases two_bit_cases op with rfl | rfl | rfl | rfl
  · rfl
  · rfl
  · rfl
  · exact absurd rfl hop

/-- The ALU's inputs stay, so a second cycle computes the same; the port is idle after it. -/
theorem held_held {f : Fields} (s : State) (hsh : f.sh ≠ 3) (h : Handshake)
    (hreq : h.thisReq = false) (hop : h.thisOp = .none) :
    held f { held f s with hs := h } = { held f s with hs := Handshake.idle } := by
  have hshout := shoutOf_irrelevant hsh (held f s).shout s.shout (aluResultOf f s)
  rw [held, hreq, hop]
  exact congrArg (fun v => { held f s with hs := Handshake.idle, shout := v }) hshout

/-- The hold (rule R88): the same word runs again, and after its second cycle nothing changes. -/
theorem steps_of_holds {s : State} {w : UWord} (h : Fetches s w) (hw : WritesNothing (unpack w))
    (hhold : Holds (unpack w) s) :
    let t := held (unpack w) (s.setMir w)
    let u : State := { t with hs := Handshake.idle }
    step s = .next t ∧ step t = .next u ∧ step u = .next u := by
  intro t u
  have ht : Fetches t w := ⟨h.noFault, h.word⟩
  have hu : Fetches u w := ⟨h.noFault, h.word⟩
  refine ⟨step_eq_held h hw hhold, ?_, ?_⟩
  · rw [step_eq_held ht hw hhold]
    exact congrArg _ (held_held (s.setMir w) hw.sh t.hs rfl rfl)
  · rw [step_eq_held hu hw hhold]
    exact congrArg _ (held_held (s.setMir w) hw.sh Handshake.idle rfl rfl)

/-! ## The hold and the Stop word -/

/-- Z or N set, and no COND bit for it: the table's hold (rule R88). -/
theorem nextMpc_of_noJump (mpc : Nat) (cond : BitVec 2) (addr : BitVec 8) {z n : Bool}
    (hflags : ¬(z = true ∧ n = true))
    (h : z = true ∧ cond.getLsbD 1 = false ∨ n = true ∧ cond.getLsbD 0 = false) :
    nextMpc mpc cond addr z n = mpc := by
  rcases two_bit_cases cond with rfl | rfl | rfl | rfl <;> cases z <;> cases n <;>
    simp [nextMpc] at h hflags ⊢

/-- Settles O32: the flags that select no jump leave MPC, and then `steps_of_holds`. -/
theorem holdRepeatsTheSameWord : Obligations.HoldRepeatsTheSameWord := by
  intro s w h f hmbr hmar henc hrd hwr hsh hflags
  rw [← zFlag_aluResultOf, ← nFlag_aluResultOf] at hflags
  have hhold : Holds f s := nextMpc_of_noJump _ _ _ (not_zFlag_and_nFlag _) hflags
  obtain ⟨hs, ht, hu⟩ := steps_of_holds h ⟨hmbr, hmar, henc, hrd, hwr, hsh⟩ hhold
  exact ⟨_, hs, rfl, rfl, rfl, rfl, _, ht, rfl, hu⟩

theorem writesNothing_of_isStopWord {f : Fields} {h : Nat} (hf : IsStopWord f h) :
    WritesNothing f :=
  ⟨hf.mbr, hf.mar, hf.enc, hf.rd, hf.wr, hf.sh⟩

/-- COND_ALWAYS with a flag set jumps, and a Stop word's target is its own index (rule R108). -/
theorem holds_of_isStopWord {f : Fields} {s : State} (hf : IsStopWord f s.mpc)
    (hflag : (referenceZ (referenceResult f s) || referenceN (referenceResult f s)) = true) :
    Holds f s := by
  rw [← zFlag_aluResultOf, ← nFlag_aluResultOf] at hflag
  rw [Holds, nextMpc_eq_referenceNext, hf.cond]
  cases hz : zFlag (aluResultOf f s) <;> cases hn : nFlag (aluResultOf f s) <;>
    simp [hz, hn, referenceNext, hf.addr] at hflag ⊢

/-- Settles O33: a Stop word writes nothing and holds, so `steps_of_holds` gives the two next
states; they have the same program, MPC and registers, so they are halted too. -/
theorem stopWordHaltsForever : Obligations.StopWordHaltsForever := by
  rintro h s ⟨rfl, hfault, w, hword, hstop, hflag⟩
  obtain ⟨hs, ht, hu⟩ := steps_of_holds ⟨hfault, hword⟩ (writesNothing_of_isStopWord hstop)
    (holds_of_isStopWord hstop hflag)
  exact ⟨_, _, hs, ht, hu, ⟨rfl, hfault, w, hword, hstop, hflag⟩,
    ⟨rfl, hfault, w, hword, hstop, hflag⟩, rfl, rfl, rfl, rfl, rfl, rfl⟩

end Sys2Proof.Proofs
end

