-- ==== Sys2Proof/Proofs/RegistersAndMemory.lean ====
section
/-! PROOFS. The register write rule, memory's read after write, and its canonical form (rules R17,
R32, R35). -/

namespace Sys2Proof.Proofs

open Sys2Proof.Machine Sys2Proof.Safety Sys2Proof.Laws

/-! ## Register writes (rule R17) -/

theorem checkWidth_of_lt {v : Nat} (hv : v < 2 ^ 16) : checkWidth v = .ok (BitVec.ofNat 16 v) :=
  if_pos hv

theorem checkWidth_of_ge {v : Nat} (hv : 2 ^ 16 ≤ v) : checkWidth v = .error .overflow :=
  if_neg (Nat.not_lt.2 hv)

theorem toNat_ofNat_of_lt {v : Nat} (hv : v < 2 ^ 16) : (BitVec.ofNat 16 v).toNat = v :=
  Nat.mod_eq_of_lt hv

section Write

variable (b : Bank) {r : Reg} {v : Nat}

theorem bank_write_constant (hr : isMutable r = false) : b.write r v = .error .immutableWrite := by
  simp [Bank.write, hr]

theorem bank_write_tooLarge (hr : isMutable r = true) (hv : 2 ^ 16 ≤ v) :
    b.write r v = .error .overflow := by
  rw [Bank.write, if_pos hr, checkWidth_of_ge hv]

theorem bank_write_fits (hr : isMutable r = true) (hv : v < 2 ^ 16) :
    b.write r v = .ok (b.store r (BitVec.ofNat 16 v)) := by
  rw [Bank.write, if_pos hr, checkWidth_of_lt hv]

end Write

/-- Settles O38: the three outcomes of a write. -/
theorem registerWriteRule : Obligations.RegisterWriteRule := by
  intro b r v
  refine ⟨bank_write_constant b, bank_write_tooLarge b,
    fun hr hv => ⟨_, bank_write_fits b hr hv, ?_, ?_⟩⟩
  · rw [bank_read_store_same _ _ hr, toNat_ofNat_of_lt hv]
  · exact fun q hq => bank_read_store_other b _ hq

/-! ## Memory -/

/-- Settles O41: the same address by `read_write_same`, another by `read_write_other`. -/
theorem memoryReadsWhatWasWritten : Obligations.MemoryReadsWhatWasWritten := fun m a v =>
  ⟨read_write_same m a v, fun _ hb => read_write_other m v hb⟩

section Canonical

variable {k lo a : Nat} {v : Word} {rest m : Memory}

theorem wfFrom_cons : Memory.wfFrom lo ((k, v) :: rest) = true ↔
    lo ≤ k ∧ k < 2 ^ 16 ∧ Memory.wfFrom (k + 1) rest = true := by
  simp only [Memory.wfFrom, Bool.and_eq_true, decide_eq_true_eq, and_assoc]

theorem lookup_cons_self : Memory.lookup ((k, v) :: rest) k = some v := if_pos rfl

theorem lookup_cons_of_ne (h : k ≠ a) : Memory.lookup ((k, v) :: rest) a = rest.lookup a :=
  if_neg h

/-- A canonical list lists no address below its bound. -/
theorem le_of_lookup_eq_some (hm : m.wfFrom lo = true) (h : m.lookup a = some v) : lo ≤ a := by
  induction m generalizing lo with
  | nil => cases h
  | cons p rest ih =>
    obtain ⟨k, u⟩ := p
    obtain ⟨hlo, -, hrest⟩ := wfFrom_cons.1 hm
    by_cases hk : k = a
    · exact hk ▸ hlo
    · rw [lookup_cons_of_ne hk] at h
      have := ih hrest h
      omega

theorem lookup_eq_none_of_lt (hm : m.wfFrom lo = true) (h : a < lo) : m.lookup a = none :=
  Option.eq_none_iff_forall_ne_some.2 fun _ hsome =>
    absurd (le_of_lookup_eq_some hm hsome) (Nat.not_le.2 h)

/-- The first address of a canonical list is at most every address it lists. -/
theorem head_le_of_lookup_eq_some {u : Word} (hm : Memory.wfFrom lo ((k, u) :: rest) = true)
    (h : Memory.lookup ((k, u) :: rest) a = some v) : k ≤ a :=
  le_of_lookup_eq_some (wfFrom_cons.2 ⟨le_rfl, (wfFrom_cons.1 hm).2⟩) h

end Canonical

/-- Two canonical lists that list the same words are equal: the first address of each is the least
that it lists, and the rest of each lists what is left. -/
theorem eq_of_lookup_eq {m m' : Memory} {lo lo' : Nat} (hm : m.wfFrom lo = true)
    (hm' : m'.wfFrom lo' = true) (h : ∀ a, m.lookup a = m'.lookup a) : m = m' := by
  induction m generalizing m' lo lo' with
  | nil =>
    match m' with
    | [] => rfl
    | (k', _) :: _ => cases (h k').trans lookup_cons_self
  | cons p rest ih =>
    obtain ⟨k, v⟩ := p
    match m' with
    | [] => cases lookup_cons_self.symm.trans (h k)
    | (k', v') :: rest' =>
      have hhead : Memory.lookup ((k', v') :: rest') k = some v := (h k).symm.trans lookup_cons_self
      obtain rfl : k = k' := Nat.le_antisymm
        (head_le_of_lookup_eq_some hm ((h k').trans lookup_cons_self))
        (head_le_of_lookup_eq_some hm' hhead)
      obtain rfl : v' = v := Option.some.inj (lookup_cons_self.symm.trans hhead)
      have hrest := (wfFrom_cons.1 hm).2.2
      have hrest' := (wfFrom_cons.1 hm').2.2
      rw [ih hrest hrest' fun a => ?_]
      by_cases ha : k = a
      · have hlt : a < k + 1 := by omega
        rw [lookup_eq_none_of_lt hrest hlt, lookup_eq_none_of_lt hrest' hlt]
      · simpa only [lookup_cons_of_ne ha] using h a

/-- Settles O42: canonical lists that list the same words are equal (`eq_of_lookup_eq`). -/
theorem canonicalMemoriesAreEqualData : Obligations.CanonicalMemoriesAreEqualData :=
  fun _ _ => eq_of_lookup_eq

end Sys2Proof.Proofs
end

