-- ==== Sys2Proof/Proofs/HostInterface.lean ====
section
/-! PROOFS. The host's names, seeds, program load and error kinds, and the state before the first
cycle (rules R12, R29, R90, R91, R101 to R104). -/

namespace Sys2Proof.Proofs

open Sys2Proof.Machine Sys2Proof.Safety Sys2Proof.Laws

/-! ## Register names and seeding (rules R12, R103, R104) -/

/-- A name that is found is in the table. -/
theorem mem_nameTable_of_registerByName {name : String} {r : Reg}
    (h : registerByName name = .ok r) : (name, r) ∈ nameTable := by
  unfold registerByName at h
  split at h
  case h_1 p hp =>
    cases h
    have hname : p.1 = name := by simpa using List.find?_some hp
    exact hname ▸ List.mem_of_find?_eq_some hp
  case h_2 => cases h

/-- Each name of the table is found. -/
theorem registerByName_of_mem : ∀ p ∈ nameTable, registerByName p.1 = .ok p.2 := by
  decide

/-- Settles O40: the table by evaluation, and the search in both directions. -/
theorem nameTableNamesTheSixteenRegisters : Obligations.NameTableNamesTheSixteenRegisters :=
  ⟨by decide, by decide, fun name r =>
    ⟨mem_nameTable_of_registerByName, registerByName_of_mem (name, r)⟩⟩

/-- The only error of the search. -/
theorem registerByName_error {name : String} {e : ErrorKind}
    (h : registerByName name = .error e) : e = .unknownRegisterName := by
  unfold registerByName at h
  split at h <;> cases h
  rfl

/-- Settles O43: a known name is a write of the register it names. -/
theorem seedingFollowsTheRegisterWriteRule : Obligations.SeedingFollowsTheRegisterWriteRule := by
  intro su name v
  refine ⟨fun e he => ?unknown, fun r hname => ⟨?constant, ?tooLarge, ?fits⟩⟩
  case unknown =>
    obtain rfl := registerByName_error he
    exact ⟨rfl, by rw [Setup.seed, he]⟩
  case constant =>
    intro hr
    rw [Setup.seed, hname]
    simp only [bank_write_constant su.bank hr]
  case tooLarge =>
    intro hr hv
    rw [Setup.seed, hname]
    simp only [bank_write_tooLarge su.bank hr hv]
  case fits =>
    intro hr hv
    refine ⟨{ su with bank := su.bank.store r (BitVec.ofNat 16 v) }, ?_, ?_, rfl, ?_⟩
    · rw [Setup.seed, hname]
      simp only [bank_write_fits su.bank hr hv]
    · exact (congrArg _ (bank_read_store_same _ _ hr)).trans (toNat_ofNat_of_lt hv)
    · exact fun q hq => bank_read_store_other _ _ hq

/-- Settles O44: the width check of either number, and then one write. -/
theorem memoryPreloadIsRangeChecked : Obligations.MemoryPreloadIsRangeChecked := by
  intro su a v
  refine ⟨fun h => ?tooLarge, fun ha hv => ?fits⟩
  case tooLarge =>
    by_cases ha : a < 2 ^ 16
    · have hv : 2 ^ 16 ≤ v := by omega
      rw [Setup.memseed, checkWidth_of_lt ha, checkWidth_of_ge hv]
    · rw [Setup.memseed, checkWidth_of_ge (Nat.not_lt.1 ha)]
  case fits =>
    refine ⟨{ su with mem := su.mem.write (BitVec.ofNat 16 a) (BitVec.ofNat 16 v) },
      ?_, rfl, ?_, ?_⟩
    · rw [Setup.memseed, checkWidth_of_lt ha, checkWidth_of_lt hv]
    · rw [read_write_same, toNat_ofNat_of_lt hv]
    · intro b hb
      exact read_write_other _ _ fun heq => hb (heq ▸ toNat_ofNat_of_lt ha)

/-! ## Before the first cycle -/

/-- Settles O45, by the definition of the two states. -/
theorem initialStateAsTheHostLeftIt : Obligations.InitialStateAsTheHostLeftIt :=
  ⟨fun _ => ⟨rfl, rfl, rfl, rfl, rfl, rfl, rfl, rfl, rfl, rfl, rfl, rfl⟩, rfl, rfl, rfl⟩

/-- Settles O46: the first step of an empty program has no word to fetch. -/
theorem loadedProgramIsProgramMemory : Obligations.LoadedProgramIsProgramMemory := by
  intro su words
  refine ⟨rfl, fun hnil => ?_, fun w rest hcons => ⟨rfl, ?_⟩⟩
  · subst hnil
    exact ⟨_, step_of_noWord rfl rfl, rfl⟩
  · subst hcons
    rfl

theorem placeWord_same (prog : List UWord) (i : Nat) (w : UWord) :
    (placeWord prog i w)[i]? = some w := by
  unfold placeWord
  split
  case isTrue hi => rw [List.getElem?_set_self hi]
  case isFalse hi =>
    rw [List.getElem?_append_right (by omega), List.getElem?_replicate, if_pos (by omega)]

theorem placeWord_other (prog : List UWord) {i k : Nat} (w : UWord) (hk : k < prog.length)
    (hne : k ≠ i) : (placeWord prog i w)[k]? = prog[k]? := by
  unfold placeWord
  split
  case isTrue => rw [List.getElem?_set_ne hne.symm]
  case isFalse => rw [List.getElem?_append_left hk]

/-- Settles O47: the placed word is at MPC, and the words beside it stay. -/
theorem placedWordIsTheNextFetched : Obligations.PlacedWordIsTheNextFetched := by
  intro s w
  refine ⟨⟨rfl, (placeWord_same _ _ _).trans ?_⟩, rfl, fun k hk hne => placeWord_other _ _ hk hne⟩
  rw [BitVec.ofNat_toNat, BitVec.setWidth_eq]

/-! ## Error kinds -/

/-- No two kinds share a code (rule R90). -/
theorem code_injective {j k : ErrorKind} (h : j.code = k.code) : j = k := by
  cases j <;> cases k <;> simp [ErrorKind.code] at h ⊢

/-- Settles O48: the codes kind by kind, and the fatal kinds as the images of `FatalKind`. -/
theorem errorKindsHaveCodesAndSeverities : Obligations.ErrorKindsHaveCodesAndSeverities := by
  refine ⟨fun j k => code_injective, fun k => by cases k <;> decide, fun k => ⟨fun h => ?_, ?_⟩⟩
  · cases k <;> cases h
    · exact ⟨.conflictingMemoryOp, rfl⟩
    · exact ⟨.programCounterOutOfRange, rfl⟩
  · rintro ⟨q, rfl⟩
    cases q <;> rfl

end Sys2Proof.Proofs
end

