-- ==== Sys2Proof/Proofs/Invariant.lean ====
section
/-! PROOFS. The invariant of the machine: before the first cycle, over a step and along a run (rules
R11, R22, R24, R28, R59). -/

namespace Sys2Proof.Proofs

open Sys2Proof.Machine Sys2Proof.Safety Sys2Proof.Laws

/-! ## The port of the invariant -/

theorem portCoherent_idle : PortCoherent Handshake.idle := ⟨rfl, rfl, rfl⟩

/-- The shift of a coherent port, which a conflict leaves (rules R75, R76). -/
theorem portCoherent_shift {h : Handshake} (hh : PortCoherent h) : PortCoherent h.shift :=
  ⟨hh.this, rfl, by simp [Handshake.commits, Handshake.shift]⟩

/-- Every request keeps the port coherent: it waits, or it commits and leaves the port idle. -/
theorem portCoherent_portAfter {h : Handshake} (hh : PortCoherent h) (op : MemOp) :
    PortCoherent (portAfter h op) := by
  cases hc : (h.shift.set op).commits with
  | true => exact portAfter_of_commit hc ▸ portCoherent_idle
  | false => exact portAfter_of_wait hc ▸ ⟨hh.this, rfl, hc⟩

/-! ## Before the first cycle, and every step -/

/-- Settles O49: the flags are clear, the port idle, and no event is recorded. -/
theorem invariantHoldsInitially : Obligations.InvariantHoldsInitially := by
  have hinitial (su : Setup) (hmem : su.mem.wf = true) : Inv (State.initial su) :=
    ⟨hmem, fun ⟨hz, _⟩ => Bool.false_ne_true hz, portCoherent_idle, rfl, fun e he => by cases he⟩
  exact ⟨hinitial, hinitial Setup.unseeded reset_mem_wf⟩

/-- A step with no word to fetch changes nothing that the invariant speaks of. -/
theorem inv_raiseFatal {s : State} (h : Inv s) (k : FatalKind) : Inv (s.raiseFatal k) :=
  ⟨h.memory, h.flags, h.port, h.latches, h.events⟩

/-- The events of a cycle are of the two reachable kinds. -/
theorem event_of_mem_cycled_events {f : Fields} {s : State} {e : Event}
    (he : e ∈ (cycled f s).events) : e ∈ s.events ∨
      e = ErrorKind.undefinedShiftOp.event ∨ e = ErrorKind.immutableWrite.event := by
  rw [cycled_events, List.mem_append, List.mem_append, shiftReports] at he
  rcases he with (he | he) | he
  · exact .inl he
  · exact .inr (.inl (List.mem_singleton.1 (List.mem_ite_nil_right.1 he).2))
  · exact .inr (.inr (List.mem_singleton.1 (List.mem_ite_nil_right.1 he).2))

/-- A cycle keeps the invariant, part by part. -/
theorem inv_cycled {s : State} (h : Inv s) (f : Fields) : Inv (cycled f s) where
  memory := by
    rw [cycled_mem]
    split
    case isTrue => exact write_keeps_wf _ _ h.memory
    case isFalse => exact h.memory
  flags := by
    rw [cycled_z, cycled_n]
    exact not_zFlag_and_nFlag _
  port := by
    by_cases hf : isConflict f
    · rw [cycled_of_conflict s hf]
      exact portCoherent_shift h.port
    · rw [cycled_hs s hf, request_hs_eq_portAfter]
      exact portCoherent_portAfter h.port _
  latches := cycled_lat f s
  events := fun e he => (event_of_mem_cycled_events he).elim (h.events e) id

/-- Settles O50: a step records that there is no word, or runs a cycle (`step_next_cases`). -/
theorem everyStepKeepsTheInvariant : Obligations.EveryStepKeepsTheInvariant := by
  intro s t h hstep
  rcases step_next_cases hstep with ⟨-, rfl⟩ | ⟨w, -, rfl⟩
  · exact inv_raiseFatal h _
  · have hfetched : Inv (s.setMir w) := ⟨h.memory, h.flags, h.port, h.latches, h.events⟩
    exact inv_cycled hfetched (unpack w)

/-! ## Every run -/

/-- A step loses no event. -/
theorem step_events {s t : State} (h : step s = .next t) : ∃ new, t.events = s.events ++ new := by
  rcases step_next_cases h with ⟨-, rfl⟩ | ⟨w, -, rfl⟩
  · exact ⟨[], (List.append_nil _).symm⟩
  · exact ⟨_, (cycled_events _ _).trans (List.append_assoc _ _ _)⟩

/-- Settles O51, by induction on the run; a constant reads the same in every bank. -/
theorem everyRunKeepsTheInvariant : Obligations.EveryRunKeepsTheInvariant := by
  intro s t hs hrun
  suffices hkept : Inv t ∧ t.prog = s.prog ∧ ∃ new, t.events = s.events ++ new from
    ⟨hkept.1, hkept.2.1, hkept.2.2, fun r hr => bank_read_constant _ _ hr⟩
  induction hrun with
  | refl => exact ⟨hs, rfl, [], (List.append_nil _).symm⟩
  | step _ hstep ih =>
    obtain ⟨hinv, hprog, new, hnew⟩ := ih
    obtain ⟨more, hmore⟩ := step_events hstep
    exact ⟨everyStepKeepsTheInvariant _ _ hinv hstep,
      (mpcMovesByOneOrToALowIndex _ _ hstep).1.trans hprog,
      new ++ more, by rw [hmore, hnew, List.append_assoc]⟩

end Sys2Proof.Proofs
end
